-- ==== Sys2Proof/Word.lean ====
section
/-! DEFINITION. The word types of the block and their plainest arithmetic: spec/00_scope.md rules R8, R9 and R11.
Values the spec shifts, masks or wraps are bit vectors; exact arithmetic (deviation, products, quotients) is done on
`Int` and `Nat` where it is used and narrowed explicitly. -/

namespace Sys2Proof

/-- One byte of a frame (u8). -/
abbrev Byte := BitVec 8

/-- A 16-bit field: sensor register address, count, value, CRC. -/
abbrev Half := BitVec 16

/-- A 32-bit register value, bus datum or command word. -/
abbrev Word := BitVec 32

/-- The 48-bit width of a peak result (R49). -/
abbrev Width48 := BitVec 48

end Sys2Proof
end

