-- ==== Sys2Proof/Syntax.lean ====
section
/-! DEFINITION. The block's instructions, its command words: one constructor per row of spec/opcode_table.json
(spec/30_encoding.md rule R98). An operand's type is its bit field (R93 to R95), so that no operand can be out of range
(R142); an operand a command takes from OPND or DEC_VALUE is state, not syntax (R96). -/

namespace Sys2Proof

/-- A command of the CFV command set, version 1. -/
inductive Instr where
  /-- NOP (R160) -/
  | nop
  /-- CRC.INIT (R124) -/
  | crcInit
  /-- CRC.BYTE imm8 (R125) -/
  | crcByte (imm8 : BitVec 8)
  /-- CRC.RX (R126) -/
  | crcRx
  /-- FCHK (R191) -/
  | fchk
  /-- RX.CLR (R161) -/
  | rxClr
  /-- RX.PUSH imm8 (R162) -/
  | rxPush (imm8 : BitVec 8)
  /-- RX.LOOP (R163) -/
  | rxLoop
  /-- ENC imm8: the immediate is the function code (R143) -/
  | enc (imm8 : BitVec 8)
  /-- RDDIST (R144) -/
  | rddist
  /-- RDREG imm16: the immediate is a sensor register address (R145) -/
  | rdreg (imm16 : BitVec 16)
  /-- WRREG (R146) -/
  | wrreg
  /-- VAL len8, func8 (R192) -/
  | val (len8 : BitVec 8) (func8 : BitVec 8)
  /-- DEC.DIST (R193) -/
  | decDist
  /-- DEC.U16 (R195) -/
  | decU16
  /-- DEC.ACK (R197) -/
  | decAck
  /-- PK.RST (R230) -/
  | pkRst
  /-- PK.SMP (R231) -/
  | pkSmp
  /-- PK.DEC (R232) -/
  | pkDec
  deriving DecidableEq, Repr

end Sys2Proof
end

