-- ==== Sys2Proof/WellFormed.lean ====
section
/-! DEFINITION. The command's formats (spec/30_encoding.md rules R91 to R95), its names, and when a command line of rule
R102 is a word: it has its format's operands and each fits its field ("an operand out of range is an assembly error, not a
word"). An `Instr` is well-formed when the line it is written as passes that check. -/

namespace Sys2Proof

/-- The four formats of a command word (R92 to R95). -/
inductive Format where
  /-- N: no operand (R92) -/
  | none
  /-- B: byte immediate (R93) -/
  | byte
  /-- H: halfword immediate (R94) -/
  | half
  /-- V: expected length and function (R95) -/
  | validate
  deriving DecidableEq, Repr

/-- The opcodes of the opcode map (R98), one name each. -/
inductive Opcode where
  | nop | crcInit | crcByte | crcRx | fchk
  | rxClr | rxPush | rxLoop
  | enc | rddist | rdreg | wrreg
  | val | decDist | decU16 | decAck
  | pkRst | pkSmp | pkDec
  deriving DecidableEq, Repr

/-- R98, column "format": "The format is fixed by the opcode" (R91). -/
def Opcode.format : Opcode → Format
  | .crcByte | .rxPush | .enc => .byte
  | .rdreg => .half
  | .val => .validate
  | .nop | .crcInit | .crcRx | .fchk | .rxClr | .rxLoop | .rddist | .wrreg
  | .decDist | .decU16 | .decAck | .pkRst | .pkSmp | .pkDec => .none

/-- The sizes in bits of a format's operands, in the order R102 writes them. -/
def Format.operandBits : Format → List Nat
  | .none => []
  | .byte => [8]
  | .half => [16]
  | .validate => [8, 8]

/-- A command line (R102): a mnemonic and its operands as numbers. -/
structure CommandLine where
  opcode : Opcode
  operands : List Nat
  deriving DecidableEq, Repr

/-- The opcode of an instruction. -/
def Instr.opcode : Instr → Opcode
  | .nop => .nop
  | .crcInit => .crcInit
  | .crcByte _ => .crcByte
  | .crcRx => .crcRx
  | .fchk => .fchk
  | .rxClr => .rxClr
  | .rxPush _ => .rxPush
  | .rxLoop => .rxLoop
  | .enc _ => .enc
  | .rddist => .rddist
  | .rdreg _ => .rdreg
  | .wrreg => .wrreg
  | .val _ _ => .val
  | .decDist => .decDist
  | .decU16 => .decU16
  | .decAck => .decAck
  | .pkRst => .pkRst
  | .pkSmp => .pkSmp
  | .pkDec => .pkDec

/-- The operands of an instruction as numbers, in the order R102 writes them (R97: unsigned, unscaled). -/
def Instr.operands : Instr → List Nat
  | .crcByte b | .rxPush b | .enc b => [b.toNat]
  | .rdreg r => [r.toNat]
  | .val l f => [l.toNat, f.toNat]
  | .nop | .crcInit | .crcRx | .fchk | .rxClr | .rxLoop | .rddist | .wrreg
  | .decDist | .decU16 | .decAck | .pkRst | .pkSmp | .pkDec => []

/-- The line an instruction is written as. -/
def Instr.toLine (i : Instr) : CommandLine := ⟨i.opcode, i.operands⟩

/-- Each operand fits its field. -/
def operandsFit : List Nat → List Nat → Bool
  | [], [] => true
  | bits :: bs, v :: vs => decide (v < 2 ^ bits) && operandsFit bs vs
  | [], _ :: _ => false
  | _ :: _, [] => false

/-- R102: the line has its format's operands, each in range. -/
def CommandLine.wf (l : CommandLine) : Bool := operandsFit l.opcode.format.operandBits l.operands

/-- An instruction is well-formed when the line it is written as is. -/
def Instr.wf (i : Instr) : Bool := i.toLine.wf

end Sys2Proof
end

