-- ==== Sys2Proof/Decode.lean ====
section
/-! DEFINITION. Command encoding (spec/30_encoding.md): the opcode numbers and the opcode map of rule R98, the decoder of
rule R90 (total on every 32-bit word, rejecting by name), the encoder and the assembler of rule R102. -/

namespace Sys2Proof

/-- R98, column "op". -/
def Opcode.byte : Opcode → Byte
  | .nop => 0x00#8
  | .crcInit => 0x01#8
  | .crcByte => 0x02#8
  | .crcRx => 0x03#8
  | .fchk => 0x04#8
  | .rxClr => 0x08#8
  | .rxPush => 0x09#8
  | .rxLoop => 0x0A#8
  | .enc => 0x10#8
  | .rddist => 0x11#8
  | .rdreg => 0x12#8
  | .wrreg => 0x13#8
  | .val => 0x20#8
  | .decDist => 0x21#8
  | .decU16 => 0x22#8
  | .decAck => 0x23#8
  | .pkRst => 0x30#8
  | .pkSmp => 0x31#8
  | .pkDec => 0x32#8

/-- The opcodes in the order of R98. -/
def Opcode.all : List Opcode :=
  [.nop, .crcInit, .crcByte, .crcRx, .fchk, .rxClr, .rxPush, .rxLoop, .enc, .rddist, .rdreg, .wrreg,
   .val, .decDist, .decU16, .decAck, .pkRst, .pkSmp, .pkDec]

/-- The opcode of R98 that has this number, if one has. -/
def Opcode.ofByte? (b : Byte) : Option Opcode := Opcode.all.find? fun o => o.byte == b

/-- A row of the opcode map (R98): a word `w` selects the row with `w and mask = bits`. -/
structure OpcodeRow where
  opcode : Opcode
  format : Format
  bits : Word
  mask : Word
  deriving DecidableEq, Repr

/-- The complete opcode map, the columns mnemonic, format, match and mask of R98. -/
def opcodeMap : List OpcodeRow := [
  ⟨.nop,     .none,     0x00000000#32, 0xFFFFFFFF#32⟩,
  ⟨.crcInit, .none,     0x01000000#32, 0xFFFFFFFF#32⟩,
  ⟨.crcByte, .byte,     0x02000000#32, 0xFFFFFF00#32⟩,
  ⟨.crcRx,   .none,     0x03000000#32, 0xFFFFFFFF#32⟩,
  ⟨.fchk,    .none,     0x04000000#32, 0xFFFFFFFF#32⟩,
  ⟨.rxClr,   .none,     0x08000000#32, 0xFFFFFFFF#32⟩,
  ⟨.rxPush,  .byte,     0x09000000#32, 0xFFFFFF00#32⟩,
  ⟨.rxLoop,  .none,     0x0A000000#32, 0xFFFFFFFF#32⟩,
  ⟨.enc,     .byte,     0x10000000#32, 0xFFFFFF00#32⟩,
  ⟨.rddist,  .none,     0x11000000#32, 0xFFFFFFFF#32⟩,
  ⟨.rdreg,   .half,     0x12000000#32, 0xFFFF0000#32⟩,
  ⟨.wrreg,   .none,     0x13000000#32, 0xFFFFFFFF#32⟩,
  ⟨.val,     .validate, 0x20000000#32, 0xFFFF0000#32⟩,
  ⟨.decDist, .none,     0x21000000#32, 0xFFFFFFFF#32⟩,
  ⟨.decU16,  .none,     0x22000000#32, 0xFFFFFFFF#32⟩,
  ⟨.decAck,  .none,     0x23000000#32, 0xFFFFFFFF#32⟩,
  ⟨.pkRst,   .none,     0x30000000#32, 0xFFFFFFFF#32⟩,
  ⟨.pkSmp,   .none,     0x31000000#32, 0xFFFFFFFF#32⟩,
  ⟨.pkDec,   .none,     0x32000000#32, 0xFFFFFFFF#32⟩]

/-- R98: "A word w selects the row whose (w and mask) = match." -/
def OpcodeRow.selects (r : OpcodeRow) (w : Word) : Bool := (w &&& r.mask) == r.bits

/-- Why a word is no command (R99). -/
inductive DecodeError where
  /-- the opcode byte is not in the opcode map -/
  | unknownOpcode (op : Byte)
  /-- the opcode is listed, and its reserved bits are not all 0 -/
  | reservedBits (op : Opcode)
  deriving DecidableEq, Repr

/-- R91: the opcode is `w[31:24]`. -/
def opField (w : Word) : Byte := w.extractLsb' 24 8

/-- The bits below the opcode, `w[23:0]`. -/
def lowField (w : Word) : BitVec 24 := w.extractLsb' 0 24

/-- R92 to R95: the reserved bits of the format are all 0. -/
def Format.reservedClear : Format → BitVec 24 → Bool
  | .none, low => low == 0#24
  | .byte, low => low.extractLsb' 8 16 == 0#16
  | .half, low => low.extractLsb' 16 8 == 0#8
  | .validate, low => low.extractLsb' 16 8 == 0#8

/-- The instruction of an opcode and its operand fields (R93: imm8 = w[7:0]; R94: imm16 = w[15:0]; R95: len8 = w[15:8],
func8 = w[7:0]). -/
def Opcode.build : Opcode → BitVec 24 → Instr
  | .nop, _ => .nop
  | .crcInit, _ => .crcInit
  | .crcByte, low => .crcByte (low.extractLsb' 0 8)
  | .crcRx, _ => .crcRx
  | .fchk, _ => .fchk
  | .rxClr, _ => .rxClr
  | .rxPush, low => .rxPush (low.extractLsb' 0 8)
  | .rxLoop, _ => .rxLoop
  | .enc, low => .enc (low.extractLsb' 0 8)
  | .rddist, _ => .rddist
  | .rdreg, low => .rdreg (low.extractLsb' 0 16)
  | .wrreg, _ => .wrreg
  | .val, low => .val (low.extractLsb' 8 8) (low.extractLsb' 0 8)
  | .decDist, _ => .decDist
  | .decU16, _ => .decU16
  | .decAck, _ => .decAck
  | .pkRst, _ => .pkRst
  | .pkSmp, _ => .pkSmp
  | .pkDec, _ => .pkDec

/-- R90: the opcode must be in the map, then the format's reserved bits must be 0. -/
def decode (w : Word) : Except DecodeError Instr :=
  match Opcode.ofByte? (opField w) with
  | none => .error (.unknownOpcode (opField w))
  | some o =>
    if o.format.reservedClear (lowField w) then .ok (o.build (lowField w)) else .error (.reservedBits o)

/-- The bits below the opcode of an instruction's word, the reserved ones 0 (R92 to R95). -/
def Instr.lowBits : Instr → BitVec 24
  | .crcByte b | .rxPush b | .enc b => 0#16 ++ b
  | .rdreg r => 0#8 ++ r
  | .val l f => 0#8 ++ l ++ f
  | .nop | .crcInit | .crcRx | .fchk | .rxClr | .rxLoop | .rddist | .wrreg
  | .decDist | .decU16 | .decAck | .pkRst | .pkSmp | .pkDec => 0#24

/-- The encoder: the word of an instruction (R91 to R95, R98). -/
def encode (i : Instr) : Word := i.opcode.byte ++ i.lowBits

/-- The number R102's column "word" puts below `op << 24`. -/
def Format.operandWord : Format → List Nat → Nat
  | .byte, [v] => v
  | .half, [v] => v
  | .validate, [l, f] => (l <<< 8) ||| f
  | .none, _ => 0
  | .byte, _ => 0
  | .half, _ => 0
  | .validate, _ => 0

/-- The assembler of R102: the word of a line, or none for an assembly error. -/
def assemble (l : CommandLine) : Option Word :=
  if l.wf then
    some (BitVec.ofNat 32 ((l.opcode.byte.toNat <<< 24) ||| l.opcode.format.operandWord l.operands))
  else none

/-- The instruction the decoder reads from the command word whose bits are `w` (every bit above `nbits` is 0). A command
is one 32-bit word (R100), so the numbering of spec/opcode_table.json is the word's own. -/
def decodeTableWord (nbits w : Nat) : Option Instr := (decode (BitVec.ofNat 32 (w % 2 ^ nbits))).toOption

end Sys2Proof
end

