-- ==== Sys2Proof/Config.lean ====
section
/-! DEFINITION. What is fixed for the block: the implementation parameters of spec/00_scope.md rule R7, the identity of
rule R2, and the one free value of the model (spec/93_implementation_defined.md U13). `BASE`, which the spec leaves OPEN,
is no constant here: it is the field `baseSlot` of State, so that every statement holds for every `BASE`. -/

namespace Sys2Proof.Config

/-- R2: the hardware's name. -/
def hardwareName : String := "CFV"

/-- R1, R2: the version of the command set. -/
def commandSetVersion : Nat := 1

/-- R7, R61: the size of the register window in bytes; `BASE` is a multiple of it. -/
def windowSize : Nat := 0x80

/-- R7: the only legal access size in bytes. -/
def accessSize : Nat := 4

/-- R120: the reflected polynomial. -/
def crcPoly : Half := 0xA001#16

/-- R121: the CRC's initial value. -/
def crcInit : Half := 0xFFFF#16

/-- R34: the device address after reset. -/
def resetDevaddr : Byte := 0x01#8

/-- R41: the threshold after reset, 1.00 mm. -/
def resetThreshold : Word := 100#32

/-- R42: the sample spacing after reset, 0.30 mm per sample. -/
def resetSpacing : Half := 30#16

/-- R43: the fixed width after reset, 0.48 mm. -/
def resetFixwidth : Word := 48#32

/-- FREE VALUE (R281, U13, log entry 1): the word a read returns when it overlaps reset, for the `n`-th such read.
It has no body, so nothing can be proved of its value. -/
opaque freeReadData : Nat → BitVec 32

end Sys2Proof.Config
end

