-- ==== Sys2Proof/Machine/HostAccess.lean ====
section
/-! DEFINITION. What reaches the block from outside and what it answers, as plain data: the registers' names
(spec/10_state.md rule R22), host bus accesses (spec/20_memory.md rules R61 to R65), reset
(spec/70_reset_and_hazards.md rules R280, R281) and the responses a host observes (spec/00_scope.md rule R17). -/

namespace Sys2Proof.Machine

/-- The assigned registers of the register map (R22). -/
inductive Reg where
  | cmd | status | ctrl | devaddr | opnd | crc | rxlen | txlen | txw0 | txw1
  | rxw0 | rxw1 | rxw2 | rxw3 | decValue | baseline | threshold | spacing | fixwidth
  | sampleIndex | startIndex | widthCnt | maxDev | resWsamples | resWidthLo | resWidthHi
  | resDepth | resRatio | peakCount
  deriving DecidableEq, Repr

/-- R22, column "access". -/
inductive RegAccess where
  /-- RW -/
  | readWrite
  /-- RO: "a write is ignored" -/
  | readOnly
  /-- WO: "a read returns 0" -/
  | writeOnly
  deriving DecidableEq, Repr

/-- The two kinds of bus access (R11), a write with its datum. -/
inductive AccessKind where
  | read
  | write (v : Word)
  deriving DecidableEq, Repr

/-- One host bus access of `size` bytes at byte address `addr` (R11). The spec gives the bus no address width, so an
address is a plain number. -/
structure BusAccess where
  kind : AccessKind
  addr : Nat
  size : Nat
  deriving DecidableEq, Repr

/-- What can change the block's state: "Nothing changes its state except a host access or a reset" (R16). -/
inductive HostEvent where
  /-- the host makes an access -/
  | access (a : BusAccess)
  /-- the platform asserts reset (R280) -/
  | reset
  /-- the platform asserts reset while an access is in flight (R281; any access, log entry 12) -/
  | resetDuring (a : BusAccess)
  deriving DecidableEq, Repr

/-- What a host observes of its accesses: the values its reads return and the bus errors it receives (R17). -/
inductive Response where
  /-- the value a read returned -/
  | data (v : Word)
  /-- the error response of `raise BusError(addr)` (R256) -/
  | busError (addr : Nat)
  deriving DecidableEq, Repr

end Sys2Proof.Machine
end

