-- ==== Sys2Proof/Machine/State.lean ====
section
/-! DEFINITION. The machine's state. Every field but `host` is the block's state record exactly as spec/10_state.md rule
R54 lists it ("No state exists besides ..."), grouped as the columns of rule R56 group it; `host` is the model's own. -/

namespace Sys2Proof.Machine

/-- The registers a host writes directly, and the flag a BASELINE write sets (R65, R66). No command writes them (R56). -/
structure HostRegs where
  /-- CTRL.RXCRC, bit 0 (R33) -/
  rxcrc : Bool
  /-- CTRL.WMODE, bit 1 (R33) -/
  wmode : Bool
  /-- DEVADDR (R34) -/
  devaddr : BitVec 8
  /-- OPND (R35) -/
  opnd : BitVec 32
  /-- BASELINE (R40) -/
  baseline : BitVec 32
  /-- STATUS.BLVALID, bit 7 (R28) -/
  blvalid : Bool
  /-- THRESHOLD (R41) -/
  threshold : BitVec 32
  /-- SPACING (R42) -/
  spacing : BitVec 16
  /-- FIXWIDTH (R43) -/
  fixwidth : BitVec 32
  deriving DecidableEq, Repr

/-- The request buffer (R37). -/
structure RequestBuffer where
  /-- TXBUF[0..7] -/
  buf : Vector (BitVec 8) 8
  /-- TXLEN, the number of bytes of the request -/
  len : Fin 9
  deriving DecidableEq, Repr

/-- The response buffer (R38). -/
structure ResponseBuffer where
  /-- RXBUF[0..15] -/
  buf : Vector (BitVec 8) 16
  /-- RXLEN, the number of valid bytes, 0..16 -/
  len : Fin 17
  deriving DecidableEq, Repr

/-- The peak engine's state (R56, column "peak state"): the source's PeakState and its accumulators (R210). -/
structure PeakState where
  /-- STATUS.INPEAK, bit 6 (R27) -/
  inpeak : Bool
  /-- SAMPLE_INDEX (R44) -/
  sampleIndex : BitVec 32
  /-- START_INDEX (R45) -/
  startIndex : BitVec 32
  /-- WIDTH_CNT (R46) -/
  widthCnt : BitVec 32
  /-- MAX_DEV (R47) -/
  maxDev : BitVec 32
  deriving DecidableEq, Repr

/-- The last emitted PeakResult (R56, column "results"). -/
structure PeakResult where
  /-- RES_WSAMPLES (R48) -/
  wsamples : BitVec 32
  /-- RES_WIDTH, read as RES_WIDTH_LO and RES_WIDTH_HI (R49) -/
  width : BitVec 48
  /-- RES_DEPTH (R50) -/
  depth : BitVec 32
  /-- RES_RATIO, unsigned Q16.16 (R51) -/
  ratio : BitVec 32
  /-- STATUS.RUNDEF, bit 8 (R29) -/
  rundef : Bool
  /-- STATUS.RSAT, bit 9 (R30) -/
  rsat : Bool
  /-- STATUS.WSAT, bit 10 (R31) -/
  wsat : Bool
  /-- PEAK_COUNT (R52) -/
  count : BitVec 32
  deriving DecidableEq, Repr

/-- MODEL's own, no state of the block: where the platform placed the block, what is still to come over the bus, what the
host has received, and the counter of the free values. -/
structure HostSide where
  /-- the platform places the window at `BASE = 0x80 * baseSlot` (R61, log entry 2) -/
  baseSlot : Nat
  /-- the accesses and resets still to come, in the order they are delivered (R6, R21, log entry 3) -/
  pending : List HostEvent
  /-- what the host has received so far, oldest first (R17, log entry 3) -/
  responses : List Response
  /-- how many reads have overlapped a reset (R281, log entry 1) -/
  freeReads : Nat
  deriving DecidableEq, Repr

/-- The machine: the block's state record of R54, and the host's side of the bus. -/
structure State where
  /-- STATUS.ERR, bits 3:0 (R32) -/
  err : BitVec 4
  /-- STATUS.DISTV, bit 4 (R25) -/
  distv : Bool
  /-- STATUS.PVALID, bit 5 (R26) -/
  pvalid : Bool
  /-- CRC, the CRC accumulator (R36) -/
  crc : BitVec 16
  /-- DEC_VALUE (R39) -/
  decValue : BitVec 32
  /-- TXBUF and TXLEN (R37) -/
  tx : RequestBuffer
  /-- RXBUF and RXLEN (R38) -/
  rx : ResponseBuffer
  /-- CTRL, DEVADDR, OPND, BASELINE with BLVALID, THRESHOLD, SPACING, FIXWIDTH (R28, R33 to R35, R40 to R43) -/
  regs : HostRegs
  /-- INPEAK, SAMPLE_INDEX, START_INDEX, WIDTH_CNT, MAX_DEV (R27, R44 to R47) -/
  peak : PeakState
  /-- RES_WSAMPLES, RES_WIDTH, RES_DEPTH, RES_RATIO, RUNDEF, RSAT, WSAT, PEAK_COUNT (R29 to R31, R48 to R52) -/
  result : PeakResult
  /-- MODEL's own: the host's side of the bus -/
  host : HostSide
  deriving DecidableEq, Repr

/-- Why the machine stops. Both are faults of the host program, not of a command: every command completes (R251). -/
inductive Fault where
  /-- `raise BusError(addr)`: the size is not 4, the address is not 4-aligned or the offset is unassigned. Raised by
  Machine/Bus.lean `checkAccess`, as spec/60_exceptions.md R256 and U15 ask. Safe: the model stops where a host that
  ignores the error response would go on (log entry 4). -/
  | busError (addr : Nat)
  /-- The address is outside the window, where "The block decodes nothing" (R61). Raised by Machine/Bus.lean
  `checkAccess`. Safe: the access is not the block's, and the model stops (log entry 5). -/
  | outsideWindow (addr : Nat)
  deriving DecidableEq, Repr

/-- Why an instruction has no meaning. No meaning of this model refuses. -/
inductive Refusal where
  /-- The instruction is not modelled yet. Raised by no arm: every instruction has its meaning. Safe. -/
  | notModelled (mnemonic : String)
  deriving DecidableEq, Repr

/-- The outcomes of this machine. -/
abbrev Result := Host.Outcome State Fault Refusal

/-- The state right after reset (R280, the reset values of R22). The model's own fields: no access is pending, none was
answered, no free value was drawn, and `BASE` is 0 (log entry 2: a DESIGN CHOICE, the spec leaves `BASE` open). -/
def State.reset : State where
  err := 0#4
  distv := false
  pvalid := false
  crc := Config.crcInit
  decValue := 0#32
  tx := { buf := Vector.replicate 8 0x00#8, len := 0 }
  rx := { buf := Vector.replicate 16 0x00#8, len := 0 }
  regs :=
    { rxcrc := false, wmode := false, devaddr := Config.resetDevaddr, opnd := 0#32, baseline := 0#32, blvalid := false,
      threshold := Config.resetThreshold, spacing := Config.resetSpacing, fixwidth := Config.resetFixwidth }
  peak := { inpeak := false, sampleIndex := 0#32, startIndex := 0#32, widthCnt := 0#32, maxDev := 0#32 }
  result :=
    { wsamples := 0#32, width := 0#48, depth := 0#32, ratio := 0#32, rundef := false, rsat := false, wsat := false,
      count := 0#32 }
  host := { baseSlot := 0, pending := [], responses := [], freeReads := 0 }

end Sys2Proof.Machine
end

