-- ==== Sys2Proof/Machine/Flags.lean ====
section
/-! DEFINITION. The STATUS register (spec/10_state.md rules R24 to R32), the result codes of spec/60_exceptions.md rule
R250, and every flag a command computes: above-threshold, RUNDEF and RSAT with the ratio (spec/44_peak.md R215), WSAT. -/

namespace Sys2Proof.Machine

/-- The result codes a command can end with (R250). -/
inductive ResultCode where
  /-- the command did what its rule says -/
  | ok
  /-- RXLEN differs from the expected length -/
  | shortFrame
  /-- byte[1] is absent or differs from the expected function code -/
  | funcMismatch
  /-- the trailing two bytes are not the little-endian CRC16 of the bytes before them -/
  | crcMismatch
  /-- RX.PUSH with 16 bytes buffered -/
  | rxOverflow
  /-- PK.DEC with no decoded distance waiting -/
  | noData
  /-- PK.SMP or PK.DEC before any BASELINE write -/
  | noBaseline
  /-- unknown opcode or nonzero reserved bits -/
  | illegal
  deriving DecidableEq, Repr

/-- R250, column "code". -/
def ResultCode.code : ResultCode → BitVec 4
  | .ok => 0#4
  | .shortFrame => 1#4
  | .funcMismatch => 2#4
  | .crcMismatch => 3#4
  | .rxOverflow => 4#4
  | .noData => 5#4
  | .noBaseline => 6#4
  | .illegal => 7#4

/-- R24: STATUS as it is read, bits 31:11 zero. -/
def statusWord (s : State) : Word :=
  0#21 ++ BitVec.ofBool s.result.wsat ++ BitVec.ofBool s.result.rsat ++ BitVec.ofBool s.result.rundef ++ BitVec.ofBool s.regs.blvalid
    ++ BitVec.ofBool s.peak.inpeak ++ BitVec.ofBool s.pvalid ++ BitVec.ofBool s.distv ++ s.err

/-- R33: CTRL as it is read, bits 31:2 zero. -/
def ctrlWord (s : State) : Word := 0#30 ++ BitVec.ofBool s.regs.wmode ++ BitVec.ofBool s.regs.rxcrc

/-- R211: the deviation of a sample, exact and signed. -/
def deviation (x baseline : Word) : Int := (x.toNat : Int) - (baseline.toNat : Int)

/-- R212: `above`, an integer comparison with the unsigned THRESHOLD. -/
def aboveThreshold (dev : Int) (threshold : Word) : Bool := decide (dev > (threshold.toNat : Int))

/-- What the ratio divider returns (R215). -/
structure RatioResult where
  ratio : Word
  rundef : Bool
  rsat : Bool
  deriving DecidableEq, Repr

/-- R215: the ratio divider, unsigned Q16.16, truncated and saturating, with the guard for a zero width. -/
def ratioDiv (depth : Word) (width : Width48) : RatioResult :=
  if width.toNat = 0 then ⟨0#32, true, false⟩
  else
    let q := depth.toNat * 65536 / width.toNat
    if q > 0xFFFFFFFF then ⟨0xFFFFFFFF#32, false, true⟩ else ⟨BitVec.ofNat 32 q, false, false⟩

/-- R31, R214: WSAT for an emitted width count. -/
def widthSaturated (w : Word) : Bool := w == 0xFFFFFFFF#32

/-- R9, R212: `sat_32(w + 1)`. -/
def satIncr (w : Word) : Word := BitVec.ofNat 32 (min (w.toNat + 1) 0xFFFFFFFF)

end Sys2Proof.Machine
end

