-- ==== Sys2Proof/Machine/Operands.lean ====
section
/-! DEFINITION. Every operand form of the command set (spec/30_encoding.md rules R96, R97) and the byte assemblies of
spec/00_scope.md rule R11 and spec/20_memory.md rules R68, R69. The immediates of a command word are fields of `Instr`. -/

namespace Sys2Proof.Machine

/-- R96: `OPND.reg = REG.OPND[31:16]`, the sensor register address. -/
def opndReg (s : State) : Half := s.regs.opnd.extractLsb' 16 16

/-- R96: `OPND.val = REG.OPND[15:0]`, the count or value. -/
def opndVal (s : State) : Half := s.regs.opnd.extractLsb' 0 16

/-- R96: `OPND.sample = REG.OPND[31:0]`, a sample in centi-mm. -/
def opndSample (s : State) : Word := s.regs.opnd

/-- R232: the sample PK.DEC feeds. -/
def decodedSample (s : State) : Word := s.decValue

/-- The high byte `v[15:8]`. -/
def hiByte (v : Half) : Byte := v.extractLsb' 8 8

/-- The low byte `v[7:0]`. -/
def loByte (v : Half) : Byte := v.extractLsb' 0 8

/-- R11: `be16(x, y) = x * 256 + y`. -/
def be16 (x y : Byte) : Half := BitVec.ofNat 16 (x.toNat * 256 + y.toNat)

/-- R68: the bus word of four buffer bytes, the first in bits 7:0. -/
def packWord (b0 b1 b2 b3 : Byte) : Word := b3 ++ b2 ++ b1 ++ b0

/-- RXBUF[k]. -/
def rxByte (s : State) (k : Nat) : Byte := s.rx.buf.toList.getD k 0x00#8

/-- TXBUF[k]. -/
def txByte (s : State) (k : Nat) : Byte := s.tx.buf.toList.getD k 0x00#8

/-- RXBUF[0..RXLEN), the response as a byte sequence (R12). -/
def rxBytes (s : State) : List Byte := s.rx.buf.toList.take s.rx.len.val

/-- TXBUF[0..TXLEN), the request as a byte sequence (R60). -/
def txBytes (s : State) : List Byte := s.tx.buf.toList.take s.tx.len.val

end Sys2Proof.Machine
end

