-- ==== Sys2Proof/Machine/Ops.lean ====
section
/-! DEFINITION. The operations the meanings share: how a command ends (spec/00_scope.md rule R11 `finish`), the CRC
primitives (spec/40_crc.md R120, R121), the frame builder (spec/41_framer.md R140), the buffer writes
(spec/42_buffer.md), the response validator (spec/43_validator.md R180, R185, R186) and the peak step with its emission
(spec/44_peak.md R212 to R214). The block has no trap, so `finish` is the one way an error is taken (R251, R259). -/

namespace Sys2Proof.Machine

/-- R11: `finish(E)` sets STATUS.ERR to the code and ends the command. -/
def finish (e : ResultCode) (s : State) : State := { s with err := e.code }

/-! ### CRC unit -/

/-- One bit step of `crc_step` (R120). -/
def crcBit (c : Half) : Half := if c.getLsbD 0 then (c >>> 1) ^^^ Config.crcPoly else c >>> 1

/-- `n` bit steps. -/
def crcBits : Nat → Half → Half
  | 0, c => c
  | n + 1, c => crcBits n (crcBit c)

/-- R120: `crc_step(c, b)` folds one byte into the CRC, least significant bit first. -/
def crcStep (c : Half) (b : Byte) : Half := crcBits 8 (c ^^^ b.setWidth 16)

/-- R121: the CRC of a byte sequence. -/
def crc16 (bytes : List Byte) : Half := bytes.foldl crcStep Config.crcInit

/-! ### Framer -/

/-- R140: the six header bytes of a request frame, the 16-bit fields big-endian. -/
def frameBody (a f : Byte) (r v : Half) : List Byte := [a, f, hiByte r, loByte r, hiByte v, loByte v]

/-- R140: `frame(a, f, r, v)` stores the body and its little-endian CRC in TXBUF and leaves the CRC in REG.CRC. -/
def storeFrame (a f : Byte) (r v : Half) (s : State) : State :=
  let c := crc16 (frameBody a f r v)
  { s with
    tx.buf := #v[a, f, hiByte r, loByte r, hiByte v, loByte v, loByte c, hiByte c]
    tx.len := 8
    crc := c }

/-! ### Response buffer -/

/-- R161: every byte 0 and RXLEN 0. -/
def clearRx (s : State) : State := { s with rx.buf := Vector.replicate 16 0x00#8, rx.len := 0 }

/-- R162: the byte goes to RXBUF[RXLEN] and RXLEN rises by one. -/
def appendRx (b : Byte) (s : State) (h : s.rx.len.val < 16) : State :=
  { s with rx.buf := s.rx.buf.set s.rx.len.val b h, rx.len := ⟨s.rx.len.val + 1, Nat.succ_lt_succ h⟩ }

/-- R163: `RXBUF[k] <- (if k < TXLEN then TXBUF[k] else 0)`. -/
def loopByte (s : State) (k : Nat) : Byte := if k < s.tx.len.val then txByte s k else 0x00#8

/-- R163: the request buffer copied into the response buffer. -/
def loopRx (s : State) : State :=
  { s with
    rx.buf := #v[loopByte s 0, loopByte s 1, loopByte s 2, loopByte s 3, loopByte s 4, loopByte s 5, loopByte s 6,
      loopByte s 7, loopByte s 8, loopByte s 9, loopByte s 10, loopByte s 11, loopByte s 12, loopByte s 13,
      loopByte s 14, loopByte s 15]
    rx.len := s.tx.len.castLE (by decide) }

/-! ### Validator -/

/-- The CRC16 of the response bytes before the last two of `n` (R180, R191). -/
def bodyCrc (s : State) (n : Nat) : Half := crc16 (s.rx.buf.toList.take (n - 2))

/-- R180, R191: the last two of `n` bytes are the little-endian CRC `c`. -/
def trailerIs (s : State) (n : Nat) (c : Half) : Bool := rxByte s (n - 2) == loByte c && rxByte s (n - 1) == hiByte c

/-- What a check of the response leaves: its result code, and the state with REG.CRC as the check leaves it. -/
structure Checked where
  code : ResultCode
  state : State

/-- R180, R191: the CRC check of `n >= 2` response bytes, which leaves the computed CRC in REG.CRC. -/
def checkCrc (n : Nat) (s : State) : Checked :=
  let c := bodyCrc s n
  ⟨if trailerIs s n c then .ok else .crcMismatch, { s with crc := c }⟩

/-- R180: `validate(L, F)`: the length, then the function code, then the CRC if CTRL.RXCRC = 1. -/
def validate (len : Nat) (func : Byte) (s : State) : Checked :=
  if s.rx.len.val ≠ len then ⟨.shortFrame, s⟩
  else if len < 2 ∨ rxByte s 1 ≠ func then ⟨.funcMismatch, s⟩
  else if s.regs.rxcrc then checkCrc len s
  else ⟨.ok, s⟩

/-- R185: `decode_dist()`, `high * 65536 + low`, the high word from bytes 3 and 4, the low word from bytes 5 and 6. -/
def decodeDist (s : State) : Word :=
  BitVec.ofNat 32 ((be16 (rxByte s 3) (rxByte s 4)).toNat * 65536 + (be16 (rxByte s 5) (rxByte s 6)).toNat)

/-- R186: `decode_u16()`. -/
def decodeU16 (s : State) : Half := be16 (rxByte s 3) (rxByte s 4)

/-! ### Peak engine -/

/-- R214: the width of the closing peak, measured (exact product, below 2^48) or fixed. -/
def peakWidth (s : State) : Width48 :=
  if s.regs.wmode then BitVec.ofNat 48 s.regs.fixwidth.toNat else BitVec.ofNat 48 (s.peak.widthCnt.toNat * s.regs.spacing.toNat)

/-- R214: `emit_result()`, the PeakResult of the closing peak. -/
def emittedResult (s : State) : PeakResult :=
  let r := ratioDiv s.peak.maxDev (peakWidth s)
  { wsamples := s.peak.widthCnt
    width := peakWidth s
    depth := s.peak.maxDev
    ratio := r.ratio
    rundef := r.rundef
    rsat := r.rsat
    wsat := widthSaturated s.peak.widthCnt
    count := s.result.count + 1#32 }

/-- R212, Idle → InPeak. The stream index advances with every sample, mod 2^32 (R44). -/
def openPeak (dev : Int) (p : PeakState) : PeakState :=
  { inpeak := true, startIndex := p.sampleIndex, maxDev := BitVec.ofInt 32 dev, widthCnt := 1#32
    sampleIndex := p.sampleIndex + 1#32 }

/-- R212, InPeak → InPeak: the deviation is above threshold, so positive. -/
def extendPeak (dev : Int) (p : PeakState) : PeakState :=
  { p with
    maxDev := BitVec.ofInt 32 (max (p.maxDev.toNat : Int) dev)
    widthCnt := satIncr p.widthCnt
    sampleIndex := p.sampleIndex + 1#32 }

/-- R212, InPeak → Idle: the peak's start, count and depth are discarded. -/
def closePeak (p : PeakState) : PeakState :=
  { inpeak := false, startIndex := 0#32, maxDev := 0#32, widthCnt := 0#32, sampleIndex := p.sampleIndex + 1#32 }

/-- R212, Idle → Idle. -/
def stayIdle (p : PeakState) : PeakState := { p with sampleIndex := p.sampleIndex + 1#32 }

/-- R212: `pk_step(x)`, one transition of the peak state machine. -/
def pkStep (x : Word) (s : State) : State :=
  let dev := deviation x s.regs.baseline
  match s.peak.inpeak, aboveThreshold dev s.regs.threshold with
  | false, true => { s with peak := openPeak dev s.peak, pvalid := false }
  | false, false => { s with peak := stayIdle s.peak, pvalid := false }
  | true, true => { s with peak := extendPeak dev s.peak, pvalid := false }
  | true, false => { s with result := emittedResult s, peak := closePeak s.peak, pvalid := true }

/-- R231, R232: a sample command that fails takes no sample: PVALID is 0 and the command ends with the code. -/
def rejectSample (e : ResultCode) (s : State) : State := finish e { s with pvalid := false }

end Sys2Proof.Machine
end

