-- ==== Sys2Proof/Machine/Bus.lean ====
section
/-! DEFINITION. The register window: offsets, access kinds and widths (spec/10_state.md rule R22), what a read returns
(R22 to R52; spec/20_memory.md R63, R68), what a write does (R65, R66), which accesses are refused (R61, R62, R64; R256),
and reset (spec/70_reset_and_hazards.md R280, R281). -/

namespace Sys2Proof.Machine

/-- R22, column "offset". -/
def Reg.offset : Reg → Nat
  | .cmd => 0x00
  | .status => 0x04
  | .ctrl => 0x08
  | .devaddr => 0x0C
  | .opnd => 0x10
  | .crc => 0x14
  | .rxlen => 0x18
  | .txlen => 0x1C
  | .txw0 => 0x20
  | .txw1 => 0x24
  | .rxw0 => 0x28
  | .rxw1 => 0x2C
  | .rxw2 => 0x30
  | .rxw3 => 0x34
  | .decValue => 0x38
  | .baseline => 0x40
  | .threshold => 0x44
  | .spacing => 0x48
  | .fixwidth => 0x4C
  | .sampleIndex => 0x50
  | .startIndex => 0x54
  | .widthCnt => 0x58
  | .maxDev => 0x5C
  | .resWsamples => 0x60
  | .resWidthLo => 0x64
  | .resWidthHi => 0x68
  | .resDepth => 0x6C
  | .resRatio => 0x70
  | .peakCount => 0x74

/-- R22, column "access". -/
def Reg.access : Reg → RegAccess
  | .cmd => .writeOnly
  | .ctrl | .devaddr | .opnd | .baseline | .threshold | .spacing | .fixwidth => .readWrite
  | .status | .crc | .rxlen | .txlen | .txw0 | .txw1 | .rxw0 | .rxw1 | .rxw2 | .rxw3 | .decValue | .sampleIndex
  | .startIndex | .widthCnt | .maxDev | .resWsamples | .resWidthLo | .resWidthHi | .resDepth | .resRatio
  | .peakCount => .readOnly

/-- R22, column "width": the number of implemented low bits. -/
def Reg.width : Reg → Nat
  | .status => 11
  | .ctrl => 2
  | .devaddr => 8
  | .crc => 16
  | .rxlen => 5
  | .txlen => 4
  | .spacing => 16
  | .resWidthHi => 16
  | .cmd | .opnd | .txw0 | .txw1 | .rxw0 | .rxw1 | .rxw2 | .rxw3 | .decValue | .baseline | .threshold | .fixwidth
  | .sampleIndex | .startIndex | .widthCnt | .maxDev | .resWsamples | .resWidthLo | .resDepth | .resRatio
  | .peakCount => 32

/-- The assigned registers in the order of R22. -/
def Reg.all : List Reg :=
  [.cmd, .status, .ctrl, .devaddr, .opnd, .crc, .rxlen, .txlen, .txw0, .txw1, .rxw0, .rxw1, .rxw2, .rxw3, .decValue,
   .baseline, .threshold, .spacing, .fixwidth, .sampleIndex, .startIndex, .widthCnt, .maxDev, .resWsamples,
   .resWidthLo, .resWidthHi, .resDepth, .resRatio, .peakCount]

/-- The register at an offset, or none at an unassigned one (R64). -/
def Reg.ofOffset? (off : Nat) : Option Reg := Reg.all.find? fun r => r.offset == off

/-- R61: the byte address of the window. -/
def baseAddr (s : State) : Nat := Config.windowSize * s.host.baseSlot

/-- The byte address of a register. -/
def regAddr (s : State) (r : Reg) : Nat := baseAddr s + r.offset

/-- R63: what a read of the register returns. -/
def readReg (r : Reg) (s : State) : Word :=
  match r with
  | .cmd => 0#32
  | .status => statusWord s
  | .ctrl => ctrlWord s
  | .devaddr => s.regs.devaddr.setWidth 32
  | .opnd => s.regs.opnd
  | .crc => s.crc.setWidth 32
  | .rxlen => BitVec.ofNat 32 s.rx.len.val
  | .txlen => BitVec.ofNat 32 s.tx.len.val
  | .txw0 => packWord (txByte s 0) (txByte s 1) (txByte s 2) (txByte s 3)
  | .txw1 => packWord (txByte s 4) (txByte s 5) (txByte s 6) (txByte s 7)
  | .rxw0 => packWord (rxByte s 0) (rxByte s 1) (rxByte s 2) (rxByte s 3)
  | .rxw1 => packWord (rxByte s 4) (rxByte s 5) (rxByte s 6) (rxByte s 7)
  | .rxw2 => packWord (rxByte s 8) (rxByte s 9) (rxByte s 10) (rxByte s 11)
  | .rxw3 => packWord (rxByte s 12) (rxByte s 13) (rxByte s 14) (rxByte s 15)
  | .decValue => s.decValue
  | .baseline => s.regs.baseline
  | .threshold => s.regs.threshold
  | .spacing => s.regs.spacing.setWidth 32
  | .fixwidth => s.regs.fixwidth
  | .sampleIndex => s.peak.sampleIndex
  | .startIndex => s.peak.startIndex
  | .widthCnt => s.peak.widthCnt
  | .maxDev => s.peak.maxDev
  | .resWsamples => s.result.wsamples
  | .resWidthLo => s.result.width.extractLsb' 0 32
  | .resWidthHi => (s.result.width.extractLsb' 32 16).setWidth 32
  | .resDepth => s.result.depth
  | .resRatio => s.result.ratio
  | .peakCount => s.result.count

/-- R65: what a write to a register other than CMD does; a write to a read-only register has no effect. -/
def writeReg (r : Reg) (v : Word) (s : State) : State :=
  match r with
  | .ctrl => { s with regs.rxcrc := v.getLsbD 0, regs.wmode := v.getLsbD 1 }
  | .devaddr => { s with regs.devaddr := v.extractLsb' 0 8 }
  | .opnd => { s with regs.opnd := v }
  | .baseline => { s with regs.baseline := v, regs.blvalid := true }
  | .threshold => { s with regs.threshold := v }
  | .spacing => { s with regs.spacing := v.extractLsb' 0 16 }
  | .fixwidth => { s with regs.fixwidth := v }
  | .cmd | .status | .crc | .rxlen | .txlen | .txw0 | .txw1 | .rxw0 | .rxw1 | .rxw2 | .rxw3 | .decValue | .sampleIndex
  | .startIndex | .widthCnt | .maxDev | .resWsamples | .resWidthLo | .resWidthHi | .resDepth | .resRatio
  | .peakCount => s

/-- R61: the access is addressed to the window. -/
def inWindow (s : State) (a : BusAccess) : Bool :=
  decide (baseAddr s ≤ a.addr) && decide (a.addr < baseAddr s + Config.windowSize)

/-- R62: a 4-byte access at a 4-byte-aligned offset. -/
def legalShape (s : State) (a : BusAccess) : Bool :=
  decide (a.size = Config.accessSize) && decide ((a.addr - baseAddr s) % 4 = 0)

/-- The register an access is served at, or the fault that refuses it (R61, R62, R64, R256). -/
def checkAccess (s : State) (a : BusAccess) : Except Fault Reg :=
  if inWindow s a then
    if legalShape s a then
      match Reg.ofOffset? (a.addr - baseAddr s) with
      | some r => .ok r
      | none => .error (.busError a.addr)
    else .error (.busError a.addr)
  else .error (.outsideWindow a.addr)

/-- The host receives a response (R17). -/
def respond (r : Response) (s : State) : State := { s with host.responses := s.host.responses ++ [r] }

/-- R103: `ld NAME`, as a bus access to the block of state `s`. -/
def loadOf (s : State) (r : Reg) : BusAccess := ⟨.read, regAddr s r, 4⟩

/-- R103: `st NAME, v`. -/
def storeOf (s : State) (r : Reg) (v : Word) : BusAccess := ⟨.write v, regAddr s r, 4⟩

/-- R280: every register and buffer byte at its reset value. The host's side and the block's place stay (DEDUCED, log entry
7). -/
def resetBlock (s : State) : State := { State.reset with host := s.host }

/-- R281: reset while an access is in flight. The access is not applied; a read returns no defined data, which is a FREE
VALUE (log entry 1); the state is that of reset. DESIGN CHOICE (log entry 12): the address and size are not looked at, so
a read outside the window, or one the block would refuse without the reset, is answered like any other read in flight;
the spec does not say what the host receives for it. That a discarded write has no response is log entry 8, that the
host's side and BASE stay is log entry 7. -/
def resetDuringAccess (a : BusAccess) (s : State) : State :=
  match a.kind with
  | .read => respond (.data (Config.freeReadData s.host.freeReads)) { resetBlock s with host.freeReads := s.host.freeReads + 1 }
  | .write _ => resetBlock s

end Sys2Proof.Machine
end

