-- ==== Sys2Proof/Machine/Buffer.lean ====
section
/-! DEFINITION. NOP and the response buffer's commands: spec/42_buffer.md rules R160 to R163. -/

namespace Sys2Proof.Machine

/-- NOP (R160): do nothing except report success. -/
def execNop (s : State) : Result := .next (finish .ok s)

/-- RX.CLR (R161). -/
def execRxClr (s : State) : Result := .next (finish .ok (clearRx s))

/-- RX.PUSH imm8 (R162): on a full buffer the byte is dropped with RX_OVERFLOW. -/
def execRxPush (imm8 : BitVec 8) (s : State) : Result :=
  if h : s.rx.len.val < 16 then .next (finish .ok (appendRx imm8 s h)) else .next (finish .rxOverflow s)

/-- RX.LOOP (R163). -/
def execRxLoop (s : State) : Result := .next (finish .ok (loopRx s))

end Sys2Proof.Machine
end

