-- ==== Sys2Proof/Machine/Crc.lean ====
section
/-! DEFINITION. The CRC commands: spec/40_crc.md rules R124 to R126. -/

namespace Sys2Proof.Machine

/-- CRC.INIT (R124). -/
def execCrcInit (s : State) : Result := .next (finish .ok { s with crc := Config.crcInit })

/-- CRC.BYTE imm8 (R125). -/
def execCrcByte (imm8 : BitVec 8) (s : State) : Result := .next (finish .ok { s with crc := crcStep s.crc imm8 })

/-- CRC.RX (R126): the CRC of RXBUF[0..RXLEN), from 0xFFFF. -/
def execCrcRx (s : State) : Result := .next (finish .ok { s with crc := crc16 (rxBytes s) })

end Sys2Proof.Machine
end

