-- ==== Sys2Proof/Machine/Framer.lean ====
section
/-! DEFINITION. The request framer's commands: spec/41_framer.md rules R143 to R146. Building a frame never fails (R142). -/

namespace Sys2Proof.Machine

/-- ENC imm8 (R143): the function code is the immediate, register and value come from OPND. -/
def execEnc (imm8 : BitVec 8) (s : State) : Result :=
  .next (finish .ok (storeFrame s.regs.devaddr imm8 (opndReg s) (opndVal s) s))

/-- RDDIST (R144): register 0x0000, count 2, function 0x04. -/
def execRddist (s : State) : Result := .next (finish .ok (storeFrame s.regs.devaddr 0x04#8 0x0000#16 0x0002#16 s))

/-- RDREG imm16 (R145): function 0x04, count 1. -/
def execRdreg (imm16 : BitVec 16) (s : State) : Result :=
  .next (finish .ok (storeFrame s.regs.devaddr 0x04#8 imm16 0x0001#16 s))

/-- WRREG (R146): function 0x06. -/
def execWrreg (s : State) : Result := .next (finish .ok (storeFrame s.regs.devaddr 0x06#8 (opndReg s) (opndVal s) s))

end Sys2Proof.Machine
end

