-- ==== Sys2Proof/Machine/Peak.lean ====
section
/-! DEFINITION. The peak engine's commands: spec/44_peak.md rules R230 to R232. -/

namespace Sys2Proof.Machine

/-- PK.RST (R230): the peak engine as at its creation; baseline, configuration and decoder are kept. -/
def execPkRst (s : State) : Result :=
  .next (finish .ok
    { s with
      peak := { inpeak := false, startIndex := 0#32, maxDev := 0#32, widthCnt := 0#32, sampleIndex := 0#32 }
      result :=
        { wsamples := 0#32, width := 0#48, depth := 0#32, ratio := 0#32, count := 0#32, rundef := false, rsat := false
          wsat := false }
      pvalid := false })

/-- PK.SMP (R231): feed OPND. -/
def execPkSmp (s : State) : Result :=
  if s.regs.blvalid then .next (finish .ok (pkStep (opndSample s) s)) else .next (rejectSample .noBaseline s)

/-- PK.DEC (R232): feed the decoded distance, once. -/
def execPkDec (s : State) : Result :=
  if s.regs.blvalid then
    if s.distv then .next (finish .ok (pkStep (decodedSample s) { s with distv := false }))
    else .next (rejectSample .noData s)
  else .next (rejectSample .noBaseline s)

end Sys2Proof.Machine
end

