-- ==== Sys2Proof/Machine/Validator.lean ====
section
/-! DEFINITION. The validator's and decoder's commands: spec/43_validator.md rules R191 to R197. -/

namespace Sys2Proof.Machine

/-- FCHK (R191): the trailing CRC of whatever the buffer holds. -/
def execFchk (s : State) : Result :=
  if s.rx.len.val < 2 then .next (finish .shortFrame s)
  else .next (finish (checkCrc s.rx.len.val s).code (checkCrc s.rx.len.val s).state)

/-- VAL len8, func8 (R192). -/
def execVal (len8 func8 : BitVec 8) (s : State) : Result :=
  .next (finish (validate len8.toNat func8 s).code (validate len8.toNat func8 s).state)

/-- A decode command's common end (R193, R195, R197): DEC_VALUE takes the decoded value if the response is valid and 0
if it is not, DISTV takes `distance` (only if valid), and the command ends with the validation's code. -/
def finishDecode (c : Checked) (value : Word) (distance : Bool) : State :=
  finish c.code
    { c.state with
      decValue := if c.code = .ok then value else 0#32
      distv := distance && decide (c.code = .ok) }

/-- DEC.DIST (R193). -/
def execDecDist (s : State) : Result := .next (finishDecode (validate 9 0x04#8 s) (decodeDist s) true)

/-- DEC.U16 (R195): the value is zero-extended; DISTV is always cleared. -/
def execDecU16 (s : State) : Result := .next (finishDecode (validate 7 0x04#8 s) ((decodeU16 s).setWidth 32) false)

/-- DEC.ACK (R197): 1 for a valid acknowledgement; DISTV is always cleared. -/
def execDecAck (s : State) : Result := .next (finishDecode (validate 8 0x06#8 s) 1#32 false)

end Sys2Proof.Machine
end

