-- ==== Sys2Proof/Machine/Dispatch.lean ====
section
/-! DEFINITION. One arm per constructor of Instr (spec/30_encoding.md rule R98), each one call of its meaning. -/

namespace Sys2Proof.Machine

def exec (i : Instr) (s : State) : Host.Outcome State Fault Refusal :=
  match i with
  | .nop => Sys2Proof.Machine.execNop s
  | .crcInit => Sys2Proof.Machine.execCrcInit s
  | .crcByte imm8 => Sys2Proof.Machine.execCrcByte imm8 s
  | .crcRx => Sys2Proof.Machine.execCrcRx s
  | .fchk => Sys2Proof.Machine.execFchk s
  | .rxClr => Sys2Proof.Machine.execRxClr s
  | .rxPush imm8 => Sys2Proof.Machine.execRxPush imm8 s
  | .rxLoop => Sys2Proof.Machine.execRxLoop s
  | .enc imm8 => Sys2Proof.Machine.execEnc imm8 s
  | .rddist => Sys2Proof.Machine.execRddist s
  | .rdreg imm16 => Sys2Proof.Machine.execRdreg imm16 s
  | .wrreg => Sys2Proof.Machine.execWrreg s
  | .val len8 func8 => Sys2Proof.Machine.execVal len8 func8 s
  | .decDist => Sys2Proof.Machine.execDecDist s
  | .decU16 => Sys2Proof.Machine.execDecU16 s
  | .decAck => Sys2Proof.Machine.execDecAck s
  | .pkRst => Sys2Proof.Machine.execPkRst s
  | .pkSmp => Sys2Proof.Machine.execPkSmp s
  | .pkDec => Sys2Proof.Machine.execPkDec s

end Sys2Proof.Machine
end

