-- ==== Sys2Proof/Machine/Serve.lean ====
section
/-! DEFINITION. How the block serves what reaches it, one event at a time and each to completion: executing a command word
(spec/30_encoding.md rule R90), a host access (spec/20_memory.md R62 to R65, R70), a reset
(spec/70_reset_and_hazards.md R280, R281). -/

namespace Sys2Proof.Machine

/-- R90: `execute(w)`. An illegal word executes as `finish(ILLEGAL)` (R99, R254). -/
def execute (w : Word) (s : State) : Result :=
  match decode w with
  | .ok i => exec i s
  | .error _ => .next (finish .illegal s)

/-- A read or write at register `r` (R63, R65). -/
def serveAt (r : Reg) (k : AccessKind) (s : State) : Result :=
  match k with
  | .read => .next (respond (.data (readReg r s)) s)
  | .write v => if r = .cmd then execute v s else .next (writeReg r v s)

/-- A host access: served at its register, or refused (R256). -/
def serveAccess (a : BusAccess) (s : State) : Result :=
  match checkAccess s a with
  | .ok r => serveAt r a.kind s
  | .error f => .fault f

/-- One event (R16). -/
def serveEvent (e : HostEvent) (s : State) : Result :=
  match e with
  | .access a => serveAccess a s
  | .reset => .next (resetBlock s)
  | .resetDuring a => .next (resetDuringAccess a s)

/-- The commands `is` one after another, stopping at the first outcome that is not a next state. -/
def execAll : List Instr → State → Result
  | [], s => .next s
  | i :: is, s =>
    match exec i s with
    | .next t => execAll is t
    | .fault f => .fault f
    | .refused r => .refused r

end Sys2Proof.Machine
end

