-- ==== Sys2Proof/Machine/Step.lean ====
section
/-! DEFINITION. One step: the block serves the next host event, to completion (spec/20_memory.md rule R70). With nothing
pending it waits: "Nothing changes its state except a host access or a reset" (spec/00_scope.md R16). -/

namespace Sys2Proof.Machine

/-- The next event is taken from the host's sequence and served; with none pending the block waits (R16, R283). -/
def step (s : State) : Host.Outcome State Fault Refusal :=
  match s.host.pending with
  | [] => .next s
  | e :: rest => serveEvent e { s with host.pending := rest }

/-- The command word as the host's next access: a 4-byte write of it to CMD (R90, R103; log entry 3). The block fetches
nothing (R74), so this is where the next instruction comes from. -/
def State.withFetchWord (s : State) (nbits w : Nat) : State :=
  { s with host.pending := .access (storeOf s .cmd (BitVec.ofNat 32 (w % 2 ^ nbits))) :: s.host.pending }

end Sys2Proof.Machine
end

