-- ==== Sys2Proof/Machine/Host.lean ====
section
/-! DEFINITION. The host's side of the bus, as far as the spec gives it: the host that goes on after a bus error
(spec/60_exceptions.md rule R256) and the outcome of a host program (spec/00_scope.md R17), the host-access syntax and the
pseudo-instructions of spec/30_encoding.md R103, R104, the typed operations of spec/41_framer.md R147, R148 with the
transaction of spec/20_memory.md R81, the result collection of R86, and the calibrator's rounding of R84. None of it is
state of the block. -/

namespace Sys2Proof.Machine

/-- R256: the host receives the error response and drops the access; no block state changes. -/
def afterBusError (addr : Nat) (s : State) : State := respond (.busError addr) { s with host.pending := s.host.pending.tail }

/-- One step under a host that ignores error responses ("What the host does with the error response ... is the host's
architecture", R256). An access outside the window is not the block's and gets no response of it (R61). -/
def stepOn (s : State) : State :=
  match step s with
  | .next t => t
  | .fault (.busError addr) => afterBusError addr s
  | .fault (.outsideWindow _) => { s with host.pending := s.host.pending.tail }
  | .refused _ => s

/-- `n` such steps. -/
def runOn : Nat → State → State
  | 0, s => s
  | n + 1, s => runOn n (stepOn s)

/-- R17: the outcome of the pending host program: the responses it receives and the block's state after its last access. -/
def outcome (s : State) : State := runOn s.host.pending.length s

/-- R103: `cmd MNEMONIC operands` is `st CMD, word`. -/
def cmdOf (s : State) (i : Instr) : BusAccess := storeOf s .cmd (encode i)

/-- The pseudo-instructions of R104. -/
inductive Pseudo where
  | setop (r v : BitVec 16)
  | readdist
  | readreg (r : BitVec 16)
  | write (r v : BitVec 16)
  | req (f : BitVec 8) (r v : BitVec 16)
  | rxload (bytes : List (BitVec 8))
  | crcof (bytes : List (BitVec 8))
  | sample (x : BitVec 32)
  | setbase (b : BitVec 32)
  deriving DecidableEq, Repr

/-- R104: the accesses a pseudo-instruction expands to. -/
def expand (s : State) : Pseudo → List BusAccess
  | .setop r v => [storeOf s .opnd (r ++ v)]
  | .readdist => [cmdOf s .rddist]
  | .readreg r => [cmdOf s (.rdreg r)]
  | .write r v => [storeOf s .opnd (r ++ v), cmdOf s .wrreg]
  | .req f r v => [storeOf s .opnd (r ++ v), cmdOf s (.enc f)]
  | .rxload bytes => cmdOf s .rxClr :: bytes.map fun b => cmdOf s (.rxPush b)
  | .crcof bytes => cmdOf s .crcInit :: bytes.map fun b => cmdOf s (.crcByte b)
  | .sample x => [storeOf s .opnd x, cmdOf s .pkSmp]
  | .setbase b => [storeOf s .baseline b]

/-- The sensor's registers (R147). They are the sensor's: the block checks none of them. -/
inductive SensorReg where
  | distance | mode | lightIntensity | threshold | analogMode | laserEnable
  deriving DecidableEq, Repr

/-- R147, column "sensor reg". -/
def sensorAddr : SensorReg → Half
  | .distance => 0x0000#16
  | .mode => 0x0001#16
  | .lightIntensity => 0x0002#16
  | .threshold => 0x0003#16
  | .analogMode => 0x0004#16
  | .laserEnable => 0x0005#16

/-- The RegisterClient operations (R148). -/
inductive ClientOp where
  | readDistance
  | readMode
  | readLightIntensity
  | readThreshold
  | readAnalogMode
  | readLaserStatus
  | writeRegister (addr value : BitVec 16)
  deriving DecidableEq, Repr

/-- R148, column "framer command". -/
def requestOf : ClientOp → Pseudo
  | .readDistance => .readdist
  | .readMode => .readreg (sensorAddr .mode)
  | .readLightIntensity => .readreg (sensorAddr .lightIntensity)
  | .readThreshold => .readreg (sensorAddr .threshold)
  | .readAnalogMode => .readreg (sensorAddr .analogMode)
  | .readLaserStatus => .readreg (sensorAddr .laserEnable)
  | .writeRegister addr value => .write addr value

/-- R148, column "response length". -/
def responseLength : ClientOp → Nat
  | .readDistance => 9
  | .readMode | .readLightIntensity | .readThreshold | .readAnalogMode | .readLaserStatus => 7
  | .writeRegister _ _ => 8

/-- R148, column "function". -/
def responseFunction : ClientOp → Byte
  | .readDistance | .readMode | .readLightIntensity | .readThreshold | .readAnalogMode | .readLaserStatus => 0x04#8
  | .writeRegister _ _ => 0x06#8

/-- R148, column "decode command". -/
def decodeCommand : ClientOp → Instr
  | .readDistance => .decDist
  | .readMode | .readLightIntensity | .readThreshold | .readAnalogMode | .readLaserStatus => .decU16
  | .writeRegister _ _ => .decAck

/-- R81, steps 1 and 2: build the request and read it for the line. -/
def sendAccesses (s : State) (op : ClientOp) : List BusAccess :=
  expand s (requestOf op) ++ [loadOf s .txlen, loadOf s .txw0, loadOf s .txw1]

/-- R81, steps 4 and 5, and R82: deliver the bytes that came, decode them, read the outcome. -/
def receiveAccesses (s : State) (op : ClientOp) (bytes : List Byte) : List BusAccess :=
  expand s (.rxload bytes) ++ [cmdOf s (decodeCommand op), loadOf s .status, loadOf s .decValue]

/-- R86: the reads of a peak result. -/
def collectResult (s : State) : List BusAccess :=
  [loadOf s .resWsamples, loadOf s .resWidthLo, loadOf s .resWidthHi, loadOf s .resDepth, loadOf s .resRatio,
   loadOf s .status]

/-- R84: the baseline of the valid samples, the mean rounded to the nearest centi-mm, ties up; none for no sample
(`CalibrationFailed`: no BASELINE is written). -/
def calibratedBaseline (samples : List Word) : Option Word :=
  let n := samples.length
  let sum := (samples.map BitVec.toNat).sum
  if n = 0 then none else some (BitVec.ofNat 32 ((2 * sum + n) / (2 * n)))

end Sys2Proof.Machine
end

