-- ==== Sys2Proof/Safety.lean ====
section
/-! DEFINITION. What always holds of the block: the invariants the spec states for its registers (spec/10_state.md rules
R32, R37, R38, R46, R53; spec/41_framer.md R141; spec/44_peak.md R213, R215), and what a safe run is. Also the names
the statements use for sets of commands and for a state after reset. -/

namespace Sys2Proof.Machine

/-- R32, R250: codes 8 to 15 are never written. -/
def ErrInv (s : State) : Prop := s.err.toNat < 8

/-- R37: TXLEN is 0 before any framer command and 8 after; the bytes are 0 until then. -/
def TxLenInv (s : State) : Prop :=
  (s.tx.len.val = 0 ∧ ∀ k, k < 8 → txByte s k = 0x00#8) ∨ s.tx.len.val = 8

/-- R141: a frame in the request buffer carries the CRC16 of its first six bytes, low byte first. -/
def TxFrameInv (s : State) : Prop :=
  s.tx.len.val = 8 →
    txByte s 6 = loByte (crc16 (s.tx.buf.toList.take 6)) ∧ txByte s 7 = hiByte (crc16 (s.tx.buf.toList.take 6))

/-- R38: `RXBUF[k] = 0x00` for every `k >= RXLEN`. -/
def RxTailZero (s : State) : Prop := ∀ k, k < 16 → s.rx.len.val ≤ k → rxByte s k = 0x00#8

/-- R53 (a) and (b). -/
def PeakInv (s : State) : Prop :=
  (s.peak.inpeak = false → s.peak.startIndex = 0#32 ∧ s.peak.widthCnt = 0#32 ∧ s.peak.maxDev = 0#32) ∧
    (s.peak.inpeak = true → 1 ≤ s.peak.widthCnt.toNat ∧ 1 ≤ s.peak.maxDev.toNat)

/-- R46, R213: while a peak is open and its count has not saturated, the count is the distance of the indices. -/
def WidthCountInv (s : State) : Prop :=
  s.peak.inpeak = true → s.peak.widthCnt ≠ 0xFFFFFFFF#32 → s.peak.widthCnt = s.peak.sampleIndex - s.peak.startIndex

/-- R28, R231, R232: before the first BASELINE write the peak engine has taken no sample. -/
def BaselineInv (s : State) : Prop :=
  s.regs.blvalid = false →
    s.regs.baseline = 0#32 ∧ s.peak.inpeak = false ∧ s.pvalid = false ∧ s.peak.sampleIndex = 0#32 ∧ s.result.count = 0#32

/-- R29 to R31, R215: what the result flags say of the result registers. -/
def ResultInv (s : State) : Prop :=
  (s.result.rundef = true → s.result.width = 0#48 ∧ s.result.ratio = 0#32) ∧
    (s.result.rsat = true → s.result.rundef = false ∧ s.result.ratio = 0xFFFFFFFF#32) ∧
    (s.result.wsat = true ↔ s.result.wsamples = 0xFFFFFFFF#32)

/-- The invariant of the block. -/
structure Inv (s : State) : Prop where
  err : ErrInv s
  txLen : TxLenInv s
  txFrame : TxFrameInv s
  rxTail : RxTailZero s
  peak : PeakInv s
  widthCount : WidthCountInv s
  baseline : BaselineInv s
  result : ResultInv s

/-- A safe state: the invariant holds and the next step is no fault of the host program. -/
def Safe (s : State) : Prop := Inv s ∧ ∃ t, step s = .next t

/-- Feeding samples one after another: OPND takes each, then PK.SMP runs (R104 `SAMPLE`). -/
def feedSamples : List Word → State → Result
  | [], s => .next s
  | x :: xs, s =>
    match exec .pkSmp { s with regs.opnd := x } with
    | .next t => feedSamples xs t
    | .fault f => .fault f
    | .refused r => .refused r

/-- R280: every register and buffer byte has the reset value of R22. -/
def AtReset (t : State) : Prop :=
  (t.err = 0#4 ∧ t.distv = false ∧ t.pvalid = false ∧ t.peak.inpeak = false ∧ t.regs.blvalid = false ∧ t.result.rundef = false ∧
    t.result.rsat = false ∧ t.result.wsat = false) ∧
  (t.regs.rxcrc = false ∧ t.regs.wmode = false ∧ t.regs.devaddr = 0x01#8 ∧ t.regs.opnd = 0#32 ∧ t.crc = 0xFFFF#16) ∧
  (t.tx.len.val = 0 ∧ (∀ k, k < 8 → txByte t k = 0x00#8) ∧ t.rx.len.val = 0 ∧ (∀ k, k < 16 → rxByte t k = 0x00#8) ∧
    t.decValue = 0#32) ∧
  (t.regs.baseline = 0#32 ∧ t.regs.threshold = 100#32 ∧ t.regs.spacing = 30#16 ∧ t.regs.fixwidth = 48#32) ∧
  (t.peak.sampleIndex = 0#32 ∧ t.peak.startIndex = 0#32 ∧ t.peak.widthCnt = 0#32 ∧ t.peak.maxDev = 0#32) ∧
  (t.result.wsamples = 0#32 ∧ t.result.width = 0#48 ∧ t.result.depth = 0#32 ∧ t.result.ratio = 0#32 ∧ t.result.count = 0#32)

/-- R250, column "written by": the codes a command can end with. -/
def codesOf : Instr → List (BitVec 4)
  | .val _ _ | .decDist | .decU16 | .decAck => [0#4, 1#4, 2#4, 3#4]
  | .fchk => [0#4, 1#4, 3#4]
  | .rxPush _ => [0#4, 4#4]
  | .pkDec => [0#4, 5#4, 6#4]
  | .pkSmp => [0#4, 6#4]
  | .nop | .crcInit | .crcByte _ | .crcRx | .rxClr | .rxLoop | .enc _ | .rddist | .rdreg _ | .wrreg | .pkRst => [0#4]

/-- The four framer commands (R140). -/
def isFramer : Instr → Bool
  | .enc _ | .rddist | .rdreg _ | .wrreg => true
  | .nop | .crcInit | .crcByte _ | .crcRx | .fchk | .rxClr | .rxPush _ | .rxLoop | .val _ _ | .decDist | .decU16
  | .decAck | .pkRst | .pkSmp | .pkDec => false

/-- The commands that write the response buffer (R164). -/
def isRxWriter : Instr → Bool
  | .rxClr | .rxPush _ | .rxLoop => true
  | .nop | .crcInit | .crcByte _ | .crcRx | .fchk | .enc _ | .rddist | .rdreg _ | .wrreg | .val _ _ | .decDist
  | .decU16 | .decAck | .pkRst | .pkSmp | .pkDec => false

/-- The commands that may write REG.CRC (R36). -/
def isCrcWriter : Instr → Bool
  | .crcInit | .crcByte _ | .crcRx | .fchk | .enc _ | .rddist | .rdreg _ | .wrreg | .val _ _ | .decDist | .decU16
  | .decAck => true
  | .nop | .rxClr | .rxPush _ | .rxLoop | .pkRst | .pkSmp | .pkDec => false

/-- The decode commands (R25, R39). -/
def isDecoder : Instr → Bool
  | .decDist | .decU16 | .decAck => true
  | .nop | .crcInit | .crcByte _ | .crcRx | .fchk | .rxClr | .rxPush _ | .rxLoop | .enc _ | .rddist | .rdreg _ | .wrreg
  | .val _ _ | .pkRst | .pkSmp | .pkDec => false

/-- The PK.* commands (R26). -/
def isPeak : Instr → Bool
  | .pkRst | .pkSmp | .pkDec => true
  | .nop | .crcInit | .crcByte _ | .crcRx | .fchk | .rxClr | .rxPush _ | .rxLoop | .enc _ | .rddist | .rdreg _ | .wrreg
  | .val _ _ | .decDist | .decU16 | .decAck => false

/-- A response is the expected one (R180): its length, its function code and, with CTRL.RXCRC = 1, its trailing CRC. -/
def ResponseValid (len : Nat) (func : Byte) (s : State) : Prop :=
  s.rx.len.val = len ∧ 2 ≤ len ∧ rxByte s 1 = func ∧
    (s.regs.rxcrc = true →
      rxByte s (len - 2) = loByte (crc16 ((rxBytes s).take (len - 2))) ∧
      rxByte s (len - 1) = hiByte (crc16 ((rxBytes s).take (len - 2))))

/-- The bytes are pushed after RX.CLR and decoded by `i` (R81, steps 4 and 5; R104 `RXLOAD`). -/
def receive (bytes : List Byte) (i : Instr) (s : State) : Result :=
  execAll ((.rxClr :: bytes.map .rxPush) ++ [i]) s

end Sys2Proof.Machine
end

