-- ==== Sys2Proof/Certificates/Slice0/Obligations.lean ====
section
/-! DEFINITION. The statements about the model, each with the rule of spec/ it formalises. "Next state of a command" is the
state `exec` answers; an equation `exec i s = .next t` with `t` an update of `s` is also the frame: every field the update
does not name is unchanged. -/

section

open Sys2Proof Sys2Proof.Machine

/-! ### Encoding (30_encoding.md) -/

/-- R91 to R98, R102: words written out from the formats decode to the commands they stand for. -/
def Obligations.SampleWordsDecode : Prop :=
  decode 0x02000001#32 = .ok (.crcByte 0x01#8) ∧ decode 0x12000003#32 = .ok (.rdreg 0x0003#16) ∧
  decode 0x20000904#32 = .ok (.val 9#8 0x04#8) ∧ decode 0x10000006#32 = .ok (.enc 0x06#8) ∧
  decode 0x0A000000#32 = .ok .rxLoop ∧ decode 0x32000000#32 = .ok .pkDec

/-- R91 to R98: the encoder loses nothing; every instruction is well-formed (its operands are bit fields, R142). -/
def Obligations.DecodeEncodeRoundTrip : Prop :=
  ∀ i : Instr, i.wf = true ∧ decode (encode i) = .ok i

/-- R91 to R95: a legal word has no bit the instruction does not carry. -/
def Obligations.EncodeDecodeRoundTrip : Prop :=
  ∀ (w : Word) (i : Instr), decode w = .ok i → encode i = w

/-- R98: the complete opcode map, its match and mask columns, and how a word selects a row. -/
def Obligations.OpcodeMapSelectsInstruction : Prop :=
  (opcodeMap.map fun r => (r.opcode, r.format, r.bits, r.mask)) = [
    (.nop, .none, 0x00000000#32, 0xFFFFFFFF#32), (.crcInit, .none, 0x01000000#32, 0xFFFFFFFF#32),
    (.crcByte, .byte, 0x02000000#32, 0xFFFFFF00#32), (.crcRx, .none, 0x03000000#32, 0xFFFFFFFF#32),
    (.fchk, .none, 0x04000000#32, 0xFFFFFFFF#32), (.rxClr, .none, 0x08000000#32, 0xFFFFFFFF#32),
    (.rxPush, .byte, 0x09000000#32, 0xFFFFFF00#32), (.rxLoop, .none, 0x0A000000#32, 0xFFFFFFFF#32),
    (.enc, .byte, 0x10000000#32, 0xFFFFFF00#32), (.rddist, .none, 0x11000000#32, 0xFFFFFFFF#32),
    (.rdreg, .half, 0x12000000#32, 0xFFFF0000#32), (.wrreg, .none, 0x13000000#32, 0xFFFFFFFF#32),
    (.val, .validate, 0x20000000#32, 0xFFFF0000#32), (.decDist, .none, 0x21000000#32, 0xFFFFFFFF#32),
    (.decU16, .none, 0x22000000#32, 0xFFFFFFFF#32), (.decAck, .none, 0x23000000#32, 0xFFFFFFFF#32),
    (.pkRst, .none, 0x30000000#32, 0xFFFFFFFF#32), (.pkSmp, .none, 0x31000000#32, 0xFFFFFFFF#32),
    (.pkDec, .none, 0x32000000#32, 0xFFFFFFFF#32)] ∧
  ∀ w : Word,
    (∀ r ∈ opcodeMap, w &&& r.mask = r.bits → ∃ i, decode w = .ok i ∧ i.opcode = r.opcode) ∧
    (∀ r ∈ opcodeMap, ∀ q ∈ opcodeMap, w &&& r.mask = r.bits → w &&& q.mask = q.bits → r = q) ∧
    ((∀ r ∈ opcodeMap, w &&& r.mask ≠ r.bits) → ∃ e, decode w = .error e)

/-- R254: a CMD write of a word no row matches sets STATUS.ERR to 7 and changes nothing else. -/
def Obligations.IllegalWordOnlySetsErr : Prop :=
  ∀ (s : State) (rest : List HostEvent) (w : Word), (∀ r ∈ opcodeMap, w &&& r.mask ≠ r.bits) →
    step { s with host.pending := .access (storeOf s .cmd w) :: rest } = .next { s with err := 7#4, host.pending := rest }

/-- R99: the unlisted opcodes, the reserved bits of each format, and the all-zero word. -/
def Obligations.ReservedEncodingsAreIllegal : Prop :=
  ∀ (s : State) (w : Word),
    (((0x05 ≤ (opField w).toNat ∧ (opField w).toNat ≤ 0x07) ∨ (0x0B ≤ (opField w).toNat ∧ (opField w).toNat ≤ 0x0F) ∨
        (0x14 ≤ (opField w).toNat ∧ (opField w).toNat ≤ 0x1F) ∨ (0x24 ≤ (opField w).toNat ∧ (opField w).toNat ≤ 0x2F) ∨
        0x33 ≤ (opField w).toNat) →
      execute w s = .next { s with err := 7#4 }) ∧
    (∀ o : Opcode, opField w = o.byte →
      ((o.format = .none ∧ (lowField w).toNat ≠ 0) ∨
        (o.format = .byte ∧ (lowField w).toNat / 2 ^ 8 ≠ 0) ∨
        ((o.format = .half ∨ o.format = .validate) ∧ (lowField w).toNat / 2 ^ 16 ≠ 0)) →
      execute w s = .next { s with err := 7#4 }) ∧
    decode 0x00000000#32 = .ok .nop

/-- R102: the assembler's words are the encoder's; a line out of range is an assembly error; every word assembled decodes
to the line. -/
def Obligations.AssemblerMatchesEncoder : Prop :=
  (∀ i : Instr, assemble i.toLine = some (encode i)) ∧
  (∀ l : CommandLine, assemble l = none ↔ l.wf = false) ∧
  (∀ (l : CommandLine) (w : Word), assemble l = some w → ∃ i, decode w = .ok i ∧ i.toLine = l)

/-! ### The step and the bus (20_memory.md) -/

/-- R90: a CMD write of a word that decodes to `i` is `exec` of `i`, the access taken from the host's sequence; and
`withFetchWord` stands for such a write. -/
def Obligations.StepRunsDecodedCommand : Prop :=
  (∀ (s : State) (rest : List HostEvent) (w : Word) (i : Instr), decode w = .ok i →
    step { s with host.pending := .access (storeOf s .cmd w) :: rest } = exec i { s with host.pending := rest }) ∧
  (∀ (s : State) (w : Nat) (i : Instr), decodeTableWord 32 w = some i → step (s.withFetchWord 32 w) = exec i s)

/-- R16, R61, R70: a step takes one event from the host's sequence, in order; with none pending nothing changes; at most
one response is added, the earlier ones stay, and the block stays where it is. The model's choice: the sequence and the
idle step (log entry 3); that a reset too keeps BASE, the rest of the sequence and the responses (log entry 7); which
events add a response (log entries 8 and 12). -/
def Obligations.StepServesOneEvent : Prop :=
  ∀ s t : State, step s = .next t →
    t.host.pending = s.host.pending.tail ∧ (s.host.pending = [] → t = s) ∧ t.host.baseSlot = s.host.baseSlot ∧
      ∃ new, t.host.responses = s.host.responses ++ new ∧ new.length ≤ 1

/-- R17, R70: an access sees the effects of all accesses before it and none after it: serving `es ++ fs` is serving `es`
and then `fs` from the state that leaves. The model's choice: the host's sequence (log entry 3); the host goes on after a
bus error (log entry 4); an access outside the window is passed over without a response (log entry 5); a reset in `es`
leaves BASE and the host's side, so `fs` is still served after it (log entry 7); which events add a response (log entries 8
and 12). -/
def Obligations.HostSequenceIsServedInOrder : Prop :=
  ∀ (s : State) (es fs : List HostEvent),
    outcome { s with host.pending := es ++ fs } = outcome { outcome { s with host.pending := es } with host.pending := fs }

/-- R63, with R22 to R52 and R68: a read returns the register, high bits 0, and 0 for CMD; it has no side effect. -/
def Obligations.ReadReturnsRegister : Prop :=
  ∀ (s : State) (rest : List HostEvent) (r : Reg), ∃ v : Word,
    step { s with host.pending := .access (loadOf s r) :: rest } =
        .next { s with host.pending := rest, host.responses := s.host.responses ++ [.data v] } ∧
    let packed := fun (byte : Nat → Byte) (k : Nat) => (byte (4 * k)).toNat + 2 ^ 8 * (byte (4 * k + 1)).toNat +
      2 ^ 16 * (byte (4 * k + 2)).toNat + 2 ^ 24 * (byte (4 * k + 3)).toNat
    v.toNat = match r with
      | .cmd => 0
      | .status => s.err.toNat + 2 ^ 4 * s.distv.toNat + 2 ^ 5 * s.pvalid.toNat + 2 ^ 6 * s.peak.inpeak.toNat +
          2 ^ 7 * s.regs.blvalid.toNat + 2 ^ 8 * s.result.rundef.toNat + 2 ^ 9 * s.result.rsat.toNat +
          2 ^ 10 * s.result.wsat.toNat
      | .ctrl => s.regs.rxcrc.toNat + 2 * s.regs.wmode.toNat
      | .devaddr => s.regs.devaddr.toNat
      | .opnd => s.regs.opnd.toNat
      | .crc => s.crc.toNat
      | .rxlen => s.rx.len.val
      | .txlen => s.tx.len.val
      | .txw0 => packed (txByte s) 0
      | .txw1 => packed (txByte s) 1
      | .rxw0 => packed (rxByte s) 0
      | .rxw1 => packed (rxByte s) 1
      | .rxw2 => packed (rxByte s) 2
      | .rxw3 => packed (rxByte s) 3
      | .decValue => s.decValue.toNat
      | .baseline => s.regs.baseline.toNat
      | .threshold => s.regs.threshold.toNat
      | .spacing => s.regs.spacing.toNat
      | .fixwidth => s.regs.fixwidth.toNat
      | .sampleIndex => s.peak.sampleIndex.toNat
      | .startIndex => s.peak.startIndex.toNat
      | .widthCnt => s.peak.widthCnt.toNat
      | .maxDev => s.peak.maxDev.toNat
      | .resWsamples => s.result.wsamples.toNat
      | .resWidthLo => s.result.width.toNat % 2 ^ 32
      | .resWidthHi => s.result.width.toNat / 2 ^ 32
      | .resDepth => s.result.depth.toNat
      | .resRatio => s.result.ratio.toNat
      | .peakCount => s.result.count.toNat

/-- R65: what a write does at each assigned offset. -/
def Obligations.WriteEffects : Prop :=
  ∀ (s : State) (rest : List HostEvent) (v : Word),
    step { s with host.pending := .access (storeOf s .cmd v) :: rest } = execute v { s with host.pending := rest } ∧
    step { s with host.pending := .access (storeOf s .ctrl v) :: rest } =
      .next { s with host.pending := rest, regs.rxcrc := v.getLsbD 0, regs.wmode := v.getLsbD 1 } ∧
    step { s with host.pending := .access (storeOf s .devaddr v) :: rest } =
      .next { s with host.pending := rest, regs.devaddr := BitVec.ofNat 8 v.toNat } ∧
    step { s with host.pending := .access (storeOf s .opnd v) :: rest } = .next { s with host.pending := rest, regs.opnd := v } ∧
    step { s with host.pending := .access (storeOf s .baseline v) :: rest } =
      .next { s with host.pending := rest, regs.baseline := v, regs.blvalid := true } ∧
    step { s with host.pending := .access (storeOf s .threshold v) :: rest } =
      .next { s with host.pending := rest, regs.threshold := v } ∧
    step { s with host.pending := .access (storeOf s .spacing v) :: rest } =
      .next { s with host.pending := rest, regs.spacing := BitVec.ofNat 16 v.toNat } ∧
    step { s with host.pending := .access (storeOf s .fixwidth v) :: rest } =
      .next { s with host.pending := rest, regs.fixwidth := v } ∧
    ∀ r : Reg, r.access = .readOnly →
      step { s with host.pending := .access (storeOf s r v) :: rest } = .next { s with host.pending := rest }

/-- R62, R64: an access to the window that is not a 4-byte access at a 4-byte-aligned address, or is at offset 0x3C, 0x78
or 0x7C, is refused with BusError (R256); every other access to the window is served. The model's choice (log entry 4): the host
that ignores the error response, records it and goes on, which finds no block state changed. -/
def Obligations.MalformedAccessIsBusError : Prop :=
  ∀ (s : State) (a : BusAccess) (rest : List HostEvent),
    baseAddr s ≤ a.addr → a.addr < baseAddr s + 0x80 →
      ((a.size ≠ 4 ∨ (a.addr - baseAddr s) % 4 ≠ 0 ∨ a.addr = baseAddr s + 0x3C ∨ a.addr = baseAddr s + 0x78 ∨
          a.addr = baseAddr s + 0x7C) →
        step { s with host.pending := .access a :: rest } = .fault (.busError a.addr) ∧
        stepOn { s with host.pending := .access a :: rest } =
          { s with host.pending := rest, host.responses := s.host.responses ++ [.busError a.addr] }) ∧
      ((a.size = 4 ∧ (a.addr - baseAddr s) % 4 = 0 ∧ a.addr ≠ baseAddr s + 0x3C ∧ a.addr ≠ baseAddr s + 0x78 ∧
          a.addr ≠ baseAddr s + 0x7C) →
        ∃ t, step { s with host.pending := .access a :: rest } = .next t)

/-- R61 with log entry 5 (the stop is the model's choice): an access outside the window stops the model, and a host that
goes on finds the block unchanged. -/
def Obligations.OutsideWindowIsNotServed : Prop :=
  ∀ (s : State) (a : BusAccess) (rest : List HostEvent),
    (a.addr < baseAddr s ∨ baseAddr s + 0x80 ≤ a.addr) →
      step { s with host.pending := .access a :: rest } = .fault (.outsideWindow a.addr) ∧
      stepOn { s with host.pending := .access a :: rest } = { s with host.pending := rest }

/-- R67: an access that is no CMD write leaves the peak engine, the buffers, CRC, DEC_VALUE and STATUS but BLVALID. -/
def Obligations.OnlyCommandsChangeTheEngines : Prop :=
  ∀ (s t : State) (a : BusAccess) (rest : List HostEvent),
    (a.kind = .read ∨ a.addr ≠ regAddr s .cmd) → step { s with host.pending := .access a :: rest } = .next t →
      t.peak = s.peak ∧ t.result = s.result ∧ t.tx = s.tx ∧ t.rx = s.rx ∧ t.crc = s.crc ∧ t.decValue = s.decValue ∧
        t.err = s.err ∧ t.distv = s.distv ∧ t.pvalid = s.pvalid

/-! ### Reset (70_reset_and_hazards.md) -/

/-- R280: reset gives every register and byte its reset value, from any state; State.reset is such a state. -/
def Obligations.ResetValues : Prop :=
  AtReset State.reset ∧
  ∀ (s : State) (rest : List HostEvent), ∃ t, step { s with host.pending := .reset :: rest } = .next t ∧ AtReset t

/-- R281: an access that overlaps reset is not applied; the state after is that of reset; a read returns some word, which
nothing fixes (log entry 1). The model's choice: the rest of the sequence and BASE are kept (log entry 7); a discarded
write has no response (log entry 8); every read has one, whatever its address and size (log entry 12). -/
def Obligations.ResetDiscardsOverlappingAccess : Prop :=
  ∀ (s : State) (a : BusAccess) (rest : List HostEvent), ∃ t,
    step { s with host.pending := .resetDuring a :: rest } = .next t ∧ AtReset t ∧ t.host.pending = rest ∧
      t.host.baseSlot = s.host.baseSlot ∧
      ((∃ v, a.kind = .write v) → t.host.responses = s.host.responses) ∧
      (a.kind = .read → ∃ v, t.host.responses = s.host.responses ++ [.data v])

/-! ### CRC unit (40_crc.md) -/

/-- R124: CRC.INIT. -/
def Obligations.CrcInitSetsInitialValue : Prop :=
  ∀ s : State, exec .crcInit s = .next { s with crc := 0xFFFF#16, err := 0#4 } ∧
    encode .crcInit = 0x01000000#32 ∧
    ∀ w : Word, opField w = 0x01#8 → lowField w ≠ 0#24 → execute w s = .next { s with err := 7#4 }

/-- R120, R125: CRC.BYTE folds the byte by eight steps, each a shift right with 0xA001 xored in if bit 0 was 1. -/
def Obligations.CrcByteFoldsEightBits : Prop :=
  ∀ (s : State) (b : Byte),
    exec (.crcByte b) s =
      .next { s with
        crc := (fun c : Half => if c.toNat % 2 = 1 then (c >>> 1) ^^^ 0xA001#16 else c >>> 1)^[8] (s.crc ^^^ b.setWidth 16)
        err := 0#4 }

/-- R121, R125: CRC.INIT and then one CRC.BYTE a byte leaves `crc16` of the bytes; of none, 0xFFFF. -/
def Obligations.CrcBytesAccumulate : Prop :=
  crc16 [] = 0xFFFF#16 ∧
  ∀ (s : State) (bytes : List Byte),
    execAll (.crcInit :: bytes.map .crcByte) s = .next { s with crc := crc16 bytes, err := 0#4 }

/-- R122: the residue property, for every byte sequence. -/
def Obligations.CrcResidueIsZero : Prop :=
  ∀ m : List Byte, crc16 (m ++ [loByte (crc16 m), hiByte (crc16 m)]) = 0x0000#16

/-- R123: the golden vector and the check value. -/
def Obligations.CrcGoldenVector : Prop :=
  crc16 [0x01#8, 0x04#8, 0x00#8, 0x00#8, 0x00#8, 0x02#8] = 0xCB71#16 ∧ loByte 0xCB71#16 = 0x71#8 ∧
  hiByte 0xCB71#16 = 0xCB#8 ∧
  crc16 [0x31#8, 0x32#8, 0x33#8, 0x34#8, 0x35#8, 0x36#8, 0x37#8, 0x38#8, 0x39#8] = 0x4B37#16

/-- R126: CRC.RX, whatever the old CRC value; an empty buffer gives 0xFFFF, a message with its CRC gives 0. -/
def Obligations.CrcRxCoversTheBuffer : Prop :=
  ∀ s : State, ∃ t, exec .crcRx s = .next t ∧ t = { s with crc := crc16 (rxBytes s), err := 0#4 } ∧
    (s.rx.len.val = 0 → t.crc = 0xFFFF#16) ∧
    (∀ m : List Byte, rxBytes s = m ++ [loByte (crc16 m), hiByte (crc16 m)] → t.crc = 0x0000#16) ∧
    encode .crcRx = 0x03000000#32

/-! ### Framer (41_framer.md) -/

/-- R140, R143 to R146: the frame each framer command builds, and that nothing else changes. -/
def Obligations.FramerCommandsBuildFrames : Prop :=
  ∀ s : State,
    let framed := fun (f rh rl vh vl : Byte) =>
      let c := crc16 [s.regs.devaddr, f, rh, rl, vh, vl]
      { s with
        tx.buf := #v[s.regs.devaddr, f, rh, rl, vh, vl, c.extractLsb' 0 8, c.extractLsb' 8 8], tx.len := 8, crc := c, err := 0#4 }
    let b := fun k => s.regs.opnd.extractLsb' (8 * k) 8
    (∀ f, exec (.enc f) s = .next (framed f (b 3) (b 2) (b 1) (b 0))) ∧
    exec .rddist s = .next (framed 0x04#8 0x00#8 0x00#8 0x00#8 0x02#8) ∧
    (∀ r : Half, exec (.rdreg r) s = .next (framed 0x04#8 (r.extractLsb' 8 8) (r.extractLsb' 0 8) 0x00#8 0x01#8)) ∧
    exec .wrreg s = .next (framed 0x06#8 (b 3) (b 2) (b 1) (b 0)) ∧
    (∀ f : Byte, (encode (.enc f)).toNat = 0x10000000 + f.toNat) ∧ encode .rddist = 0x11000000#32 ∧
    (∀ r : Half, (encode (.rdreg r)).toNat = 0x12000000 + r.toNat) ∧ encode .wrreg = 0x13000000#32

/-- R141: a frame built, looped back and checked reports OK, from every state; and its CRC over all eight bytes is 0. -/
def Obligations.BuiltFrameChecksOut : Prop :=
  ∀ (s : State) (i : Instr), isFramer i = true →
    (∃ t, execAll [i, .rxLoop, .fchk] s = .next t ∧ t.err = 0#4 ∧ t.rx.len.val = 8) ∧
    (∃ t, execAll [i, .rxLoop, .crcRx] s = .next t ∧ t.err = 0#4 ∧ t.crc = 0x0000#16)

/-- R142: building never fails, and the frame depends on DEVADDR and the operands alone. -/
def Obligations.FrameDependsOnOperandsOnly : Prop :=
  ∀ (s₁ s₂ : State) (i : Instr), isFramer i = true → s₁.regs.devaddr = s₂.regs.devaddr → s₁.regs.opnd = s₂.regs.opnd →
    ∃ t₁ t₂, exec i s₁ = .next t₁ ∧ exec i s₂ = .next t₂ ∧ t₁.err = 0#4 ∧ t₂.err = 0#4 ∧ t₁.tx.len.val = 8 ∧
      t₂.tx.len.val = 8 ∧ t₁.tx.buf = t₂.tx.buf ∧ t₁.crc = t₂.crc

/-- R60, R81 (steps 1 and 2), R104, R148: a typed operation's request, sent. The host reads TXLEN = 8 and the two words of
the frame, which carries DEVADDR, the operation's function, sensor register and count or value, and its own CRC16. -/
def Obligations.RequestTransactionSendsFrame : Prop :=
  ∀ (s : State) (op : ClientOp) (r v : Half),
    ((op = .readDistance ∧ r = 0x0000#16 ∧ v = 0x0002#16) ∨
      ((op, r) ∈ [(ClientOp.readMode, 0x0001#16), (.readLightIntensity, 0x0002#16), (.readThreshold, 0x0003#16),
          (.readAnalogMode, 0x0004#16), (.readLaserStatus, 0x0005#16)] ∧ v = 0x0001#16) ∨
      op = .writeRegister r v) →
    ∃ t, outcome { s with host.pending := (sendAccesses s op).map .access } = t ∧ t.err = 0#4 ∧ t.tx.len.val = 8 ∧
      t.tx.buf.toList.take 6 =
        [s.regs.devaddr, responseFunction op, hiByte r, loByte r, hiByte v, loByte v] ∧
      TxFrameInv t ∧
      t.host.responses = s.host.responses ++ [.data 8#32,
        .data (packWord (txByte t 0) (txByte t 1) (txByte t 2) (txByte t 3)),
        .data (packWord (txByte t 4) (txByte t 5) (txByte t 6) (txByte t 7))]

/-! ### Response buffer and no-op (42_buffer.md) -/

/-- R160: NOP. -/
def Obligations.NopOnlyReportsSuccess : Prop :=
  ∀ s : State, exec .nop s = .next { s with err := 0#4 } ∧ encode .nop = 0x00000000#32 ∧
    ∀ w : Word, opField w = 0x00#8 → lowField w ≠ 0#24 → execute w s = .next { s with err := 7#4 }

/-- R161: RX.CLR empties the buffer, a second one changes nothing more, and after it every decode command fails with
SHORT_FRAME (VAL unless its expected length is 0). -/
def Obligations.RxClrEmptiesBuffer : Prop :=
  ∀ s : State, ∃ t, exec .rxClr s = .next t ∧ (∀ k, k < 16 → rxByte t k = 0x00#8) ∧ t.rx.len.val = 0 ∧ t.err = 0#4 ∧
    { t with rx := s.rx, err := s.err } = s ∧ exec .rxClr t = .next t ∧
    (∀ i, isDecoder i = true → ∃ u, exec i t = .next u ∧ u.err = 1#4) ∧
    (∀ len func : Byte, len ≠ 0#8 → ∃ u, exec (.val len func) t = .next u ∧ u.err = 1#4) ∧
    encode .rxClr = 0x08000000#32

/-- R162: RX.PUSH appends its byte, or on a full buffer drops it with RX_OVERFLOW, and a decode after that fails with
SHORT_FRAME. -/
def Obligations.RxPushAppendsOrOverflows : Prop :=
  ∀ (s : State) (b : Byte),
    (s.rx.len.val < 16 → ∃ t, exec (.rxPush b) s = .next t ∧ t.rx.len.val = s.rx.len.val + 1 ∧ t.err = 0#4 ∧
      (∀ k, k < 16 → rxByte t k = if k = s.rx.len.val then b else rxByte s k) ∧
      { t with rx := s.rx, err := s.err } = s) ∧
    (s.rx.len.val = 16 → exec (.rxPush b) s = .next { s with err := 4#4 } ∧
      ∀ i, isDecoder i = true → ∃ u, execAll [.rxPush b, i] s = .next u ∧ u.err = 1#4) ∧
    (encode (.rxPush b)).toNat = 0x09000000 + b.toNat

/-- R163: RX.LOOP copies TXBUF[0..TXLEN) and zeroes the rest; with TXLEN = 0 it acts as RX.CLR. -/
def Obligations.RxLoopCopiesRequest : Prop :=
  ∀ s : State, ∃ t, exec .rxLoop s = .next t ∧ t.rx.len.val = s.tx.len.val ∧ t.err = 0#4 ∧
    (∀ k, k < 16 → rxByte t k = if k < s.tx.len.val then txByte s k else 0x00#8) ∧
    { t with rx := s.rx, err := s.err } = s ∧
    (s.tx.len.val = 0 → exec .rxClr s = .next t) ∧ encode .rxLoop = 0x0A000000#32

/-- R104, R161, R162: RXLOAD leaves exactly the first 16 bytes pushed, and overflows if there are more. -/
def Obligations.RxLoadHoldsTheBytes : Prop :=
  ∀ (s : State) (bytes : List Byte), ∃ t, execAll (.rxClr :: bytes.map .rxPush) s = .next t ∧
    rxBytes t = bytes.take 16 ∧ RxTailZero t ∧ t.err = (if bytes.length ≤ 16 then 0#4 else 4#4) ∧
    { t with rx := s.rx, err := s.err } = s

/-- R164: the buffer commands are the only writers of RXBUF and RXLEN, RX.CLR and RX.LOOP establish the invariant of R38
from any state, and RX.PUSH keeps it. -/
def Obligations.BufferCommandsOwnRxBuffer : Prop :=
  ∀ (s t : State) (i : Instr), exec i s = .next t →
    (isRxWriter i = false → t.rx = s.rx) ∧
    (i = .rxClr ∨ i = .rxLoop → RxTailZero t) ∧
    (∀ b, i = .rxPush b → RxTailZero s → RxTailZero t)

/-! ### Validator and decoder (43_validator.md) -/

/-- R180, R181: VAL's result codes in their precedence, and when it writes REG.CRC. -/
def Obligations.ValResultCodes : Prop :=
  ∀ (s : State) (len func : Byte),
    let c := crc16 ((rxBytes s).take (len.toNat - 2))
    (s.rx.len.val ≠ len.toNat → exec (.val len func) s = .next { s with err := 1#4 }) ∧
    (s.rx.len.val = len.toNat → (len.toNat < 2 ∨ rxByte s 1 ≠ func) →
      exec (.val len func) s = .next { s with err := 2#4 }) ∧
    (s.rx.len.val = len.toNat → 2 ≤ len.toNat → rxByte s 1 = func → s.regs.rxcrc = true →
      exec (.val len func) s = .next { s with
        crc := c
        err := if rxByte s (len.toNat - 2) ≠ c.extractLsb' 0 8 ∨ rxByte s (len.toNat - 1) ≠ c.extractLsb' 8 8
          then 3#4 else 0#4 }) ∧
    (s.rx.len.val = len.toNat → 2 ≤ len.toNat → rxByte s 1 = func → s.regs.rxcrc = false →
      exec (.val len func) s = .next { s with err := 0#4 })

/-- R191: FCHK, whatever CTRL.RXCRC is. -/
def Obligations.FchkChecksTrailingCrc : Prop :=
  ∀ s : State,
    let n := s.rx.len.val
    let c := crc16 ((rxBytes s).take (n - 2))
    (n < 2 → exec .fchk s = .next { s with err := 1#4 }) ∧
    (2 ≤ n → exec .fchk s = .next { s with
      crc := c
      err := if rxByte s (n - 2) ≠ c.extractLsb' 0 8 ∨ rxByte s (n - 1) ≠ c.extractLsb' 8 8 then 3#4 else 0#4 }) ∧
    encode .fchk = 0x04000000#32

/-- R185, R193: DEC.DIST validates as VAL 9, 0x04 does; a valid response's distance goes to DEC_VALUE with DISTV = 1, an
invalid one leaves 0 and 0. -/
def Obligations.DecDistDecodesDistance : Prop :=
  ∀ s : State, ∃ u t, exec (.val 9#8 0x04#8) s = .next u ∧ exec .decDist s = .next t ∧
    (ResponseValid 9 0x04#8 s ↔ t.err = 0#4) ∧
    (t.err = 0#4 → t.decValue.toNat =
        ((rxByte s 3).toNat * 256 + (rxByte s 4).toNat) * 65536 + ((rxByte s 5).toNat * 256 + (rxByte s 6).toNat) ∧
      t.distv = true) ∧
    (t.err ≠ 0#4 → t.decValue = 0#32 ∧ t.distv = false) ∧
    { t with decValue := s.decValue, distv := s.distv } = u ∧ encode .decDist = 0x21000000#32

/-- R186, R195, R197: DEC.U16 and DEC.ACK validate as VAL 7, 0x04 and VAL 8, 0x06 do and clear DISTV always. -/
def Obligations.DecU16AndDecAckDecode : Prop :=
  ∀ s : State,
    (∃ u t, exec (.val 7#8 0x04#8) s = .next u ∧ exec .decU16 s = .next t ∧
      (ResponseValid 7 0x04#8 s ↔ t.err = 0#4) ∧
      t.decValue.toNat = (if t.err = 0#4 then (rxByte s 3).toNat * 256 + (rxByte s 4).toNat else 0) ∧
      t.distv = false ∧ { t with decValue := s.decValue, distv := s.distv } = u) ∧
    (∃ u t, exec (.val 8#8 0x06#8) s = .next u ∧ exec .decAck s = .next t ∧
      (ResponseValid 8 0x06#8 s ↔ t.err = 0#4) ∧
      t.decValue.toNat = (if t.err = 0#4 then 1 else 0) ∧
      t.distv = false ∧ { t with decValue := s.decValue, distv := s.distv } = u) ∧
    encode .decU16 = 0x22000000#32 ∧ encode .decAck = 0x23000000#32

/-- R182, R198: with CTRL.RXCRC = 0 a distance response's bytes 0, 2, 7 and 8 do not matter. -/
def Obligations.UncheckedBytesDoNotMatter : Prop :=
  ∀ (s : State) (buf : Vector Byte 16), s.regs.rxcrc = false →
    (∀ k, k ∈ [1, 3, 4, 5, 6] → buf.toList.getD k 0x00#8 = rxByte s k) →
    ∃ t, exec .decDist s = .next t ∧ exec .decDist { s with rx.buf := buf } = .next { t with rx.buf := buf }

/-- R184: a 5-byte reply whose function code is `F or 0x80` fails: SHORT_FRAME in every decode command, FUNC_MISMATCH in
VAL 5, F. -/
def Obligations.ErrorReplyFailsValidation : Prop :=
  ∀ (s : State) (f : Byte), s.rx.len.val = 5 → f.toNat < 0x80 → rxByte s 1 = f ||| 0x80#8 →
    (∀ i, isDecoder i = true → ∃ t, exec i s = .next t ∧ t.err = 1#4) ∧
    ∃ t, exec (.val 5#8 f) s = .next t ∧ t.err = 2#4

/-- R81, R82, R148: a received response of `n` bytes decodes as a distance iff it has nine bytes and byte 1 is 0x04 (with
CTRL.RXCRC = 0); fewer or more are SHORT_FRAME. -/
def Obligations.ReceivedDistanceDecodes : Prop :=
  ∀ (s : State) (bytes : List Byte), s.regs.rxcrc = false →
    ∃ t, receive bytes .decDist s = .next t ∧
      (bytes.length ≠ 9 → t.err = 1#4 ∧ t.distv = false ∧ t.decValue = 0#32) ∧
      (bytes.length = 9 → bytes.getD 1 0x00#8 ≠ 0x04#8 → t.err = 2#4 ∧ t.distv = false ∧ t.decValue = 0#32) ∧
      (bytes.length = 9 → bytes.getD 1 0x00#8 = 0x04#8 → t.err = 0#4 ∧ t.distv = true ∧
        t.decValue.toNat = (bytes.getD 3 0x00#8).toNat * 2 ^ 24 + (bytes.getD 4 0x00#8).toNat * 2 ^ 16 +
          (bytes.getD 5 0x00#8).toNat * 2 ^ 8 + (bytes.getD 6 0x00#8).toNat)

/-! ### Peak engine (44_peak.md) -/

/-- R230: PK.RST clears the peak engine and keeps the rest. -/
def Obligations.PkRstClearsPeakEngine : Prop :=
  ∀ s : State, exec .pkRst s = .next { s with
    peak.inpeak := false, peak.startIndex := 0#32, peak.maxDev := 0#32, peak.widthCnt := 0#32, peak.sampleIndex := 0#32
    result.wsamples := 0#32, result.width := 0#48, result.depth := 0#32, result.ratio := 0#32, result.count := 0#32
    result.rundef := false, result.rsat := false, result.wsat := false, pvalid := false, err := 0#4 } ∧
    encode .pkRst = 0x30000000#32

/-- R231, R232, R255: no baseline is checked first, then no data; nothing but ERR and PVALID changes. -/
def Obligations.SampleCommandsAreRejected : Prop :=
  ∀ s : State,
    (s.regs.blvalid = false → exec .pkSmp s = .next { s with pvalid := false, err := 6#4 } ∧
      exec .pkDec s = .next { s with pvalid := false, err := 6#4 }) ∧
    (s.regs.blvalid = true → s.distv = false → exec .pkDec s = .next { s with pvalid := false, err := 5#4 })

/-- R211, R212, R213, R231: the transitions of PK.SMP that emit nothing; the deviation is exact and signed, the
comparison strict, the count saturating. -/
def Obligations.PkSmpTransitions : Prop :=
  ∀ s : State, s.regs.blvalid = true →
    let dev : Int := (s.regs.opnd.toNat : Int) - (s.regs.baseline.toNat : Int)
    let thr : Int := s.regs.threshold.toNat
    (s.peak.inpeak = false → dev ≤ thr →
      exec .pkSmp s = .next { s with peak.sampleIndex := s.peak.sampleIndex + 1#32, pvalid := false, err := 0#4 }) ∧
    (s.peak.inpeak = false → dev > thr → ∃ m : Word, (m.toNat : Int) = dev ∧
      exec .pkSmp s = .next { s with
        peak.inpeak := true, peak.startIndex := s.peak.sampleIndex, peak.maxDev := m, peak.widthCnt := 1#32
        peak.sampleIndex := s.peak.sampleIndex + 1#32, pvalid := false, err := 0#4 }) ∧
    (s.peak.inpeak = true → dev > thr → ∃ m w : Word, (m.toNat : Int) = max (s.peak.maxDev.toNat : Int) dev ∧
      w.toNat = min (s.peak.widthCnt.toNat + 1) (2 ^ 32 - 1) ∧
      exec .pkSmp s = .next { s with
        peak.maxDev := m, peak.widthCnt := w, peak.sampleIndex := s.peak.sampleIndex + 1#32, pvalid := false, err := 0#4 })

/-- R212, R214, R215: PK.SMP at or below threshold in a peak closes it and emits its result: count, width by the policy,
depth, ratio with its guards, the result flags, the emission count. -/
def Obligations.PkSmpClosesPeakAndEmits : Prop :=
  ∀ s : State, s.regs.blvalid = true → s.peak.inpeak = true →
    (s.regs.opnd.toNat : Int) - (s.regs.baseline.toNat : Int) ≤ (s.regs.threshold.toNat : Int) →
    ∃ (width : Width48) (ratio : Word) (rundef rsat wsat : Bool),
      exec .pkSmp s = .next { s with
        peak.inpeak := false, peak.startIndex := 0#32, peak.maxDev := 0#32, peak.widthCnt := 0#32
        peak.sampleIndex := s.peak.sampleIndex + 1#32, pvalid := true, err := 0#4
        result.wsamples := s.peak.widthCnt, result.width := width, result.depth := s.peak.maxDev, result.ratio := ratio
        result.rundef := rundef, result.rsat := rsat, result.wsat := wsat, result.count := s.result.count + 1#32 } ∧
      width.toNat = (if s.regs.wmode = false then s.peak.widthCnt.toNat * s.regs.spacing.toNat else s.regs.fixwidth.toNat) ∧
      (width.toNat = 0 → ratio = 0#32 ∧ rundef = true ∧ rsat = false) ∧
      (width.toNat ≠ 0 → rundef = false ∧
        ratio.toNat = min (s.peak.maxDev.toNat * 65536 / width.toNat) (2 ^ 32 - 1) ∧
        (rsat = true ↔ s.peak.maxDev.toNat * 65536 / width.toNat > 2 ^ 32 - 1)) ∧
      (wsat = true ↔ s.peak.widthCnt = 0xFFFFFFFF#32)

/-- R232: PK.DEC with a distance waiting does what PK.SMP does with it, consumes it and keeps DEC_VALUE and OPND; a second
one finds no data. -/
def Obligations.PkDecFeedsDecodedDistanceOnce : Prop :=
  ∀ s : State, s.regs.blvalid = true → s.distv = true →
    ∃ t u, exec .pkDec s = .next t ∧ exec .pkSmp { s with regs.opnd := s.decValue, distv := false } = .next u ∧
      t = { u with regs.opnd := s.regs.opnd } ∧ t.distv = false ∧ t.decValue = s.decValue ∧ t.err = 0#4 ∧
      exec .pkDec t = .next { t with pvalid := false, err := 5#4 }

/-- R216: an unsaturated ratio is at most 2^-16 below the exact quotient, and never above it. -/
def Obligations.RatioIsTruncatedQuotient : Prop :=
  ∀ (depth : Word) (width : Width48), width.toNat ≠ 0 → (ratioDiv depth width).rsat = false →
    (ratioDiv depth width).ratio.toNat * width.toNat ≤ depth.toNat * 2 ^ 16 ∧
      depth.toNat * 2 ^ 16 < ((ratioDiv depth width).ratio.toNat + 1) * width.toNat

/-- R213, R217: from Idle, samples above threshold and then one at or below it emit exactly one result, at the closing
sample and not before: the count of the samples (saturated), and their largest deviation as depth. -/
def Obligations.OnePeakEmitsOneResult : Prop :=
  ∀ (s : State) (xs : List Word) (y : Word), s.regs.blvalid = true → s.peak.inpeak = false → xs ≠ [] →
    (∀ x ∈ xs, deviation x s.regs.baseline > (s.regs.threshold.toNat : Int)) →
    deviation y s.regs.baseline ≤ (s.regs.threshold.toNat : Int) →
    ∃ u t, feedSamples xs s = .next u ∧ u.peak.inpeak = true ∧ u.pvalid = false ∧ u.result.count = s.result.count ∧
      feedSamples (xs ++ [y]) s = .next t ∧ t.peak.inpeak = false ∧ t.pvalid = true ∧ t.result.count = s.result.count + 1#32 ∧
      t.result.wsamples.toNat = min xs.length (2 ^ 32 - 1) ∧
      (t.result.wsat = true ↔ 2 ^ 32 - 1 ≤ xs.length) ∧
      (∃ x ∈ xs, (t.result.depth.toNat : Int) = deviation x s.regs.baseline) ∧
      (∀ x ∈ xs, deviation x s.regs.baseline ≤ (t.result.depth.toNat : Int))

/-! ### Rules about all commands -/

/-- R250, R251: every command completes in every state, and with one of the codes its row of R250 names. -/
def Obligations.EveryCommandCompletes : Prop :=
  ∀ (i : Instr) (s : State), ∃ t, exec i s = .next t ∧ t.err ∈ codesOf i

/-- R56: which commands leave which state. No command writes a host-written register or BLVALID. -/
def Obligations.CommandsWriteOnlyTheirState : Prop :=
  ∀ (i : Instr) (s t : State), exec i s = .next t →
    t.regs = s.regs ∧ t.host = s.host ∧
    (isCrcWriter i = false → t.crc = s.crc) ∧
    (isFramer i = false → t.tx = s.tx) ∧
    (isRxWriter i = false → t.rx = s.rx) ∧
    (isDecoder i = false → t.decValue = s.decValue) ∧
    (isPeak i = false → t.peak = s.peak ∧ t.result = s.result)

/-- R25: DISTV is set only by a DEC.DIST that succeeds; a failing DEC.DIST, DEC.U16, DEC.ACK and a PK.DEC that consumes
the distance clear it; no other command changes it, and reset clears it. -/
def Obligations.DistvRule : Prop :=
  (∀ (i : Instr) (s t : State), exec i s = .next t →
    (i = .decDist → (t.distv = true ↔ t.err = 0#4)) ∧
    (i = .decU16 ∨ i = .decAck → t.distv = false) ∧
    (i = .pkDec → t.distv = (if t.err = 0#4 then false else s.distv)) ∧
    (isDecoder i = false → i ≠ .pkDec → t.distv = s.distv)) ∧
  ∀ s : State, (resetBlock s).distv = false

/-- R26: PVALID is written by every PK.* command, 1 if it emitted a result (then and only then PEAK_COUNT rises by one)
and 0 otherwise, a failing one included; no other command changes it. -/
def Obligations.PvalidRule : Prop :=
  (∀ (i : Instr) (s t : State), exec i s = .next t →
    (i = .pkSmp ∨ i = .pkDec →
      t.result.count = (if t.pvalid = true then s.result.count + 1#32 else s.result.count) ∧
      (t.pvalid = true ↔ s.peak.inpeak = true ∧ t.peak.inpeak = false) ∧ (t.err ≠ 0#4 → t.pvalid = false)) ∧
    (i = .pkRst → t.pvalid = false ∧ t.result.count = 0#32) ∧
    (isPeak i = false → t.pvalid = s.pvalid ∧ t.result.count = s.result.count)) ∧
  ∀ s : State, (resetBlock s).pvalid = false

/-- R28, R66: BLVALID is set by a write to BASELINE and cleared by reset alone; while it is 0, PK.SMP and PK.DEC fail with
NO_BASELINE. -/
def Obligations.BlvalidRule : Prop :=
  (∀ (s t : State) (e : HostEvent) (rest : List HostEvent), s.host.pending = e :: rest → step s = .next t →
    (∀ a, e = .access a →
      ((∃ v, a.kind = .write v) ∧ a.addr = regAddr s .baseline → t.regs.blvalid = true) ∧
      (¬((∃ v, a.kind = .write v) ∧ a.addr = regAddr s .baseline) → t.regs.blvalid = s.regs.blvalid)) ∧
    (e = .reset ∨ (∃ a, e = .resetDuring a) → t.regs.blvalid = false)) ∧
  (∀ (s : State) (i : Instr), s.regs.blvalid = false → i = .pkSmp ∨ i = .pkDec → ∃ t, exec i s = .next t ∧ t.err = 6#4) ∧
  ∀ s : State, (resetBlock s).regs.blvalid = false

/-! ### The invariant (10_state.md) -/

/-- R32, R37, R38, R46, R53, R141: the block's invariant holds after reset. -/
def Obligations.InvariantAtReset : Prop := Inv State.reset

/-- R32, R37, R38, R46, R53, R141: every step keeps it, from every state. -/
def Obligations.StepKeepsInvariant : Prop := ∀ s t : State, Inv s → step s = .next t → Inv t

/-! ### Host duties the spec states as formulas (20_memory.md) -/

/-- R84: the baseline of the valid samples is their mean, rounded to nearest with ties up, and fits in 32 bits; with no
valid sample there is none. -/
def Obligations.CalibratedBaselineIsRoundedMean : Prop :=
  calibratedBaseline [] = none ∧
  ∀ samples : List Word, samples ≠ [] → ∃ b, calibratedBaseline samples = some b ∧
    2 * samples.length * b.toNat ≤ 2 * (samples.map BitVec.toNat).sum + samples.length ∧
    2 * (samples.map BitVec.toNat).sum + samples.length < 2 * samples.length * b.toNat + 2 * samples.length

end
end

