-- ==== Sys2Proof/Laws/Decode.lean ====
section
/-! SUPPORT. The fields of an encoded word, and the opcode a byte names (spec/30_encoding.md rules R91, R98). -/

namespace Sys2Proof

/-- No two opcodes share a number (R98). -/
theorem Opcode.byte_injective {o p : Opcode} (h : o.byte = p.byte) : o = p := by
  cases o <;> cases p <;> first | rfl | exact absurd h (by decide)

@[simp] theorem Opcode.ofByte?_byte (o : Opcode) : Opcode.ofByte? o.byte = some o := by
  cases o <;> rfl

theorem Opcode.byte_of_ofByte? {b : Byte} {o : Opcode} (h : Opcode.ofByte? b = some o) : o.byte = b := by
  simpa using List.find?_some h

theorem Opcode.mem_all (o : Opcode) : o ∈ Opcode.all := by cases o <;> decide

theorem word_toNat (w : Word) : w.toNat = (opField w).toNat * 2 ^ 24 + (lowField w).toNat := by
  have := w.isLt
  simp only [opField, lowField, BitVec.extractLsb'_toNat, Nat.shiftRight_eq_div_pow]; omega

theorem encode_toNat (i : Instr) : (encode i).toNat = i.opcode.byte.toNat * 2 ^ 24 + i.lowBits.toNat := by
  have h : (encode i).toNat = (i.opcode.byte ++ i.lowBits : BitVec (8 + 24)).toNat := rfl
  rw [h, BitVec.toNat_append, Nat.shiftLeft_eq, Nat.mul_comm, ← Nat.two_pow_add_eq_or_of_lt i.lowBits.isLt]

@[simp] theorem opField_encode (i : Instr) : opField (encode i) = i.opcode.byte := by
  apply BitVec.eq_of_toNat_eq
  have := i.lowBits.isLt
  have := i.opcode.byte.isLt
  have := encode_toNat i
  have := word_toNat (encode i)
  have := (lowField (encode i)).isLt
  omega

@[simp] theorem lowField_encode (i : Instr) : lowField (encode i) = i.lowBits := by
  apply BitVec.eq_of_toNat_eq
  have := i.lowBits.isLt
  have := encode_toNat i
  have := word_toNat (encode i)
  have := (lowField (encode i)).isLt
  omega

/-! The operand bits of each format as numbers (R93 to R95). -/

theorem byte_lowBits_toNat (b : Byte) : (0#16 ++ b : BitVec (16 + 8)).toNat = b.toNat := by
  simp only [BitVec.toNat_append, BitVec.toNat_ofNat, Nat.zero_mod, Nat.zero_shiftLeft, Nat.zero_or]

@[simp] theorem lowBits_crcByte_toNat (b : Byte) : (Instr.crcByte b).lowBits.toNat = b.toNat := byte_lowBits_toNat b

@[simp] theorem lowBits_rxPush_toNat (b : Byte) : (Instr.rxPush b).lowBits.toNat = b.toNat := byte_lowBits_toNat b

@[simp] theorem lowBits_enc_toNat (b : Byte) : (Instr.enc b).lowBits.toNat = b.toNat := byte_lowBits_toNat b

@[simp] theorem lowBits_rdreg_toNat (r : Half) : (Instr.rdreg r).lowBits.toNat = r.toNat := by
  have h : (Instr.rdreg r).lowBits.toNat = (0#8 ++ r : BitVec (8 + 16)).toNat := rfl
  rw [h]
  simp only [BitVec.toNat_append, BitVec.toNat_ofNat, Nat.zero_mod, Nat.zero_shiftLeft, Nat.zero_or]

@[simp] theorem lowBits_val_toNat (l f : Byte) : (Instr.val l f).lowBits.toNat = l.toNat * 2 ^ 8 + f.toNat := by
  have h : (Instr.val l f).lowBits.toNat = ((0#8 ++ l : BitVec (8 + 8)) ++ f).toNat := rfl
  rw [h]
  simp only [BitVec.toNat_append, BitVec.toNat_ofNat, Nat.zero_mod, Nat.zero_shiftLeft, Nat.zero_or]
  rw [Nat.shiftLeft_eq, Nat.mul_comm, ← Nat.two_pow_add_eq_or_of_lt f.isLt]

@[simp] theorem opcode_build (o : Opcode) (low : BitVec 24) : (o.build low).opcode = o := by cases o <;> rfl

/-- Everything the decoder can answer with an instruction (R90): the opcode is in the map, the reserved bits are 0. -/
theorem decode_ok_iff (w : Word) (i : Instr) :
    decode w = .ok i ↔
      ∃ o, Opcode.ofByte? (opField w) = some o ∧ o.format.reservedClear (lowField w) = true ∧
        o.build (lowField w) = i := by
  unfold decode
  cases h : Opcode.ofByte? (opField w) with
  | none => simp
  | some o =>
    cases hr : o.format.reservedClear (lowField w) <;> simp [hr]

end Sys2Proof
end

