-- ==== Sys2Proof/Laws/State.lean ====
section
/-! SUPPORT. One lemma per field for each shared update of State, true by rfl: how a command ends (`finish`), how the host
receives a response (`respond`), and what a reset keeps (`resetBlock`). No later proof unfolds these record updates. -/

namespace Sys2Proof.Machine

section
variable (e : ResultCode) (r : Response) (s : State)

@[simp] theorem finish_err : (finish e s).err = e.code := rfl
@[simp] theorem finish_distv : (finish e s).distv = s.distv := rfl
@[simp] theorem finish_pvalid : (finish e s).pvalid = s.pvalid := rfl
@[simp] theorem finish_crc : (finish e s).crc = s.crc := rfl
@[simp] theorem finish_decValue : (finish e s).decValue = s.decValue := rfl
@[simp] theorem finish_tx : (finish e s).tx = s.tx := rfl
@[simp] theorem finish_rx : (finish e s).rx = s.rx := rfl
@[simp] theorem finish_regs : (finish e s).regs = s.regs := rfl
@[simp] theorem finish_peak : (finish e s).peak = s.peak := rfl
@[simp] theorem finish_result : (finish e s).result = s.result := rfl
@[simp] theorem finish_host : (finish e s).host = s.host := rfl

@[simp] theorem respond_err : (respond r s).err = s.err := rfl
@[simp] theorem respond_distv : (respond r s).distv = s.distv := rfl
@[simp] theorem respond_pvalid : (respond r s).pvalid = s.pvalid := rfl
@[simp] theorem respond_crc : (respond r s).crc = s.crc := rfl
@[simp] theorem respond_decValue : (respond r s).decValue = s.decValue := rfl
@[simp] theorem respond_tx : (respond r s).tx = s.tx := rfl
@[simp] theorem respond_rx : (respond r s).rx = s.rx := rfl
@[simp] theorem respond_regs : (respond r s).regs = s.regs := rfl
@[simp] theorem respond_peak : (respond r s).peak = s.peak := rfl
@[simp] theorem respond_result : (respond r s).result = s.result := rfl
@[simp] theorem respond_responses : (respond r s).host.responses = s.host.responses ++ [r] := rfl
@[simp] theorem respond_pending : (respond r s).host.pending = s.host.pending := rfl
@[simp] theorem respond_baseSlot : (respond r s).host.baseSlot = s.host.baseSlot := rfl
@[simp] theorem respond_freeReads : (respond r s).host.freeReads = s.host.freeReads := rfl

@[simp] theorem resetBlock_err : (resetBlock s).err = State.reset.err := rfl
@[simp] theorem resetBlock_distv : (resetBlock s).distv = State.reset.distv := rfl
@[simp] theorem resetBlock_pvalid : (resetBlock s).pvalid = State.reset.pvalid := rfl
@[simp] theorem resetBlock_crc : (resetBlock s).crc = State.reset.crc := rfl
@[simp] theorem resetBlock_decValue : (resetBlock s).decValue = State.reset.decValue := rfl
@[simp] theorem resetBlock_tx : (resetBlock s).tx = State.reset.tx := rfl
@[simp] theorem resetBlock_rx : (resetBlock s).rx = State.reset.rx := rfl
@[simp] theorem resetBlock_regs : (resetBlock s).regs = State.reset.regs := rfl
@[simp] theorem resetBlock_peak : (resetBlock s).peak = State.reset.peak := rfl
@[simp] theorem resetBlock_result : (resetBlock s).result = State.reset.result := rfl
@[simp] theorem resetBlock_host : (resetBlock s).host = s.host := rfl

end

end Sys2Proof.Machine
end

