-- ==== Sys2Proof/Laws/Ops.lean ====
section
/-! SUPPORT. One lemma for each shared operation that says everything it can do, cited instead of unfolding it. -/

namespace Sys2Proof.Machine

/-! ### Byte order (R11, R69) -/

theorem be16_toNat (x y : Byte) : (be16 x y).toNat = x.toNat * 256 + y.toNat := by
  have := x.isLt
  have := y.isLt
  simp only [be16, BitVec.toNat_ofNat]; omega

theorem hiByte_toNat (v : Half) : (hiByte v).toNat = v.toNat / 256 := by
  have := v.isLt
  simp only [hiByte, BitVec.extractLsb'_toNat, Nat.shiftRight_eq_div_pow]; omega

theorem loByte_toNat (v : Half) : (loByte v).toNat = v.toNat % 256 := by
  simp only [loByte, BitVec.extractLsb'_toNat, Nat.shiftRight_zero]

@[simp] theorem be16_hi_lo (v : Half) : be16 (hiByte v) (loByte v) = v := by
  apply BitVec.eq_of_toNat_eq
  rw [be16_toNat, hiByte_toNat, loByte_toNat]; omega

theorem hiByte_be16 (x y : Byte) : hiByte (be16 x y) = x := by
  apply BitVec.eq_of_toNat_eq
  have := y.isLt
  rw [hiByte_toNat, be16_toNat]; omega

theorem loByte_be16 (x y : Byte) : loByte (be16 x y) = y := by
  apply BitVec.eq_of_toNat_eq
  have := y.isLt
  rw [loByte_toNat, be16_toNat]; omega

/-- R185, R9: the decoded distance is the four bytes, the first the most significant. -/
theorem decodeDist_toNat (s : State) :
    (decodeDist s).toNat =
      ((rxByte s 3).toNat * 256 + (rxByte s 4).toNat) * 65536 + ((rxByte s 5).toNat * 256 + (rxByte s 6).toNat) := by
  have := (be16 (rxByte s 3) (rxByte s 4)).isLt
  have := (be16 (rxByte s 5) (rxByte s 6)).isLt
  simp only [decodeDist, BitVec.toNat_ofNat]
  rw [Nat.mod_eq_of_lt (by omega), be16_toNat, be16_toNat]

/-- R68: byte `j` of the word is in bits `8j+7 : 8j`. -/
theorem packWord_toNat (b0 b1 b2 b3 : Byte) :
    (packWord b0 b1 b2 b3).toNat = b0.toNat + 2 ^ 8 * b1.toNat + 2 ^ 16 * b2.toNat + 2 ^ 24 * b3.toNat := by
  have h : (packWord b0 b1 b2 b3).toNat = (((b3 ++ b2 : BitVec (8 + 8)) ++ b1 : BitVec (8 + 8 + 8)) ++ b0).toNat := rfl
  have e : ∀ (n : Nat) (x : Byte), n * 2 ^ 8 ||| x.toNat = n * 2 ^ 8 + x.toNat := fun n x => by
    rw [Nat.mul_comm, ← Nat.two_pow_add_eq_or_of_lt x.isLt]
  rw [h]
  simp only [BitVec.toNat_append, Nat.shiftLeft_eq]
  rw [e, e, e]
  omega

/-! ### CRC (R120, R121) -/

@[simp] theorem crc16_nil : crc16 [] = Config.crcInit := rfl

theorem crc16_append (m n : List Byte) : crc16 (m ++ n) = n.foldl crcStep (crc16 m) := List.foldl_append

theorem crc16_concat (m : List Byte) (b : Byte) : crc16 (m ++ [b]) = crcStep (crc16 m) b := by
  simp [crc16_append]

/-! ### Response buffer (R161 to R163) -/

@[simp] theorem rxBytes_length (s : State) : (rxBytes s).length = s.rx.len.val := by
  have := s.rx.len.isLt
  simp [rxBytes]; omega

theorem rxByte_clearRx (s : State) (k : Nat) : rxByte (clearRx s) k = 0x00#8 := by
  simp only [rxByte, clearRx, Vector.toList_replicate, List.getD_eq_getElem?_getD, List.getElem?_replicate]
  split <;> simp

theorem rxByte_appendRx (b : Byte) (s : State) (h : s.rx.len.val < 16) (k : Nat) :
    rxByte (appendRx b s h) k = if k = s.rx.len.val then b else rxByte s k := by
  simp only [rxByte, appendRx, List.getD_eq_getElem?_getD, Vector.toList_set, List.getElem?_set]
  by_cases hk : s.rx.len.val = k
  · subst hk; simp [h]
  · simp [hk, Ne.symm hk]

theorem rxBytes_appendRx (b : Byte) (s : State) (h : s.rx.len.val < 16) :
    rxBytes (appendRx b s h) = rxBytes s ++ [b] := by
  simp only [rxBytes, appendRx, Vector.toList_set, List.take_set]
  rw [List.take_succ_eq_append_getElem (by simpa using h), List.set_append]
  simp [h.le]

theorem rxByte_loopRx (s : State) (k : Nat) (hk : k < 16) :
    rxByte (loopRx s) k = if k < s.tx.len.val then txByte s k else 0x00#8 := by
  interval_cases k <;> rfl

/-! ### Validator (R180, R181, R191) -/

/-- Everything the CRC check can do. -/
theorem checkCrc_cases (n : Nat) (s : State) :
    (checkCrc n s).state = { s with crc := bodyCrc s n } ∧
      ((trailerIs s n (bodyCrc s n) = true ∧ (checkCrc n s).code = .ok) ∨
        (trailerIs s n (bodyCrc s n) = false ∧ (checkCrc n s).code = .crcMismatch)) := by
  refine ⟨rfl, ?_⟩
  cases h : trailerIs s n (bodyCrc s n) <;> simp [checkCrc, h]

/-- Everything `validate` can do, in the order of R181. -/
theorem validate_cases (len : Nat) (func : Byte) (s : State) :
    (s.rx.len.val ≠ len ∧ validate len func s = ⟨.shortFrame, s⟩) ∨
    (s.rx.len.val = len ∧ (len < 2 ∨ rxByte s 1 ≠ func) ∧ validate len func s = ⟨.funcMismatch, s⟩) ∨
    (s.rx.len.val = len ∧ 2 ≤ len ∧ rxByte s 1 = func ∧ s.regs.rxcrc = true ∧ validate len func s = checkCrc len s) ∨
    (s.rx.len.val = len ∧ 2 ≤ len ∧ rxByte s 1 = func ∧ s.regs.rxcrc = false ∧ validate len func s = ⟨.ok, s⟩) := by
  by_cases hl : s.rx.len.val = len
  · by_cases hf : len < 2 ∨ rxByte s 1 ≠ func
    · exact .inr (.inl ⟨hl, hf, by rw [validate, if_neg (not_not.mpr hl), if_pos hf]⟩)
    · have hv : validate len func s = if s.regs.rxcrc then checkCrc len s else ⟨.ok, s⟩ := by
        rw [validate, if_neg (not_not.mpr hl), if_neg hf]
      simp only [not_or, not_lt, ne_eq, not_not] at hf
      cases hr : s.regs.rxcrc
      · exact .inr (.inr (.inr ⟨hl, hf.1, hf.2, rfl, by simp [hv, hr]⟩))
      · exact .inr (.inr (.inl ⟨hl, hf.1, hf.2, rfl, by simp [hv, hr]⟩))
  · exact .inl ⟨hl, by simp [validate, hl]⟩

/-- A validation writes REG.CRC and nothing else. -/
theorem validate_state (len : Nat) (func : Byte) (s : State) :
    ∃ c, (validate len func s).state = { s with crc := c } := by
  rcases validate_cases len func s with ⟨_, h⟩ | ⟨_, _, h⟩ | ⟨_, _, _, _, h⟩ | ⟨_, _, _, _, h⟩ <;> rw [h]
  · exact ⟨s.crc, rfl⟩
  · exact ⟨s.crc, rfl⟩
  · exact ⟨bodyCrc s len, rfl⟩
  · exact ⟨s.crc, rfl⟩

/-- The codes a validation can return. -/
theorem validate_code (len : Nat) (func : Byte) (s : State) :
    (validate len func s).code = .ok ∨ (validate len func s).code = .shortFrame ∨
      (validate len func s).code = .funcMismatch ∨ (validate len func s).code = .crcMismatch := by
  rcases validate_cases len func s with ⟨_, h⟩ | ⟨_, _, h⟩ | ⟨_, _, _, _, h⟩ | ⟨_, _, _, _, h⟩ <;> rw [h]
  · exact .inr (.inl rfl)
  · exact .inr (.inr (.inl rfl))
  · rcases (checkCrc_cases len s).2 with ⟨_, h⟩ | ⟨_, h⟩ <;> simp [h]
  · exact .inl rfl

/-! ### Peak engine (R212 to R215) -/

/-- Everything a peak step can do: the four transitions of R212. -/
theorem pkStep_cases (x : Word) (s : State) :
    (s.peak.inpeak = false ∧ aboveThreshold (deviation x s.regs.baseline) s.regs.threshold = true ∧
      pkStep x s = { s with peak := openPeak (deviation x s.regs.baseline) s.peak, pvalid := false }) ∨
    (s.peak.inpeak = false ∧ aboveThreshold (deviation x s.regs.baseline) s.regs.threshold = false ∧
      pkStep x s = { s with peak := stayIdle s.peak, pvalid := false }) ∨
    (s.peak.inpeak = true ∧ aboveThreshold (deviation x s.regs.baseline) s.regs.threshold = true ∧
      pkStep x s = { s with peak := extendPeak (deviation x s.regs.baseline) s.peak, pvalid := false }) ∨
    (s.peak.inpeak = true ∧ aboveThreshold (deviation x s.regs.baseline) s.regs.threshold = false ∧
      pkStep x s = { s with result := emittedResult s, peak := closePeak s.peak, pvalid := true }) := by
  cases hi : s.peak.inpeak <;> cases ha : aboveThreshold (deviation x s.regs.baseline) s.regs.threshold <;>
    simp [pkStep, hi, ha]

/-- The peak step writes the peak state, the results and PVALID only. -/
theorem pkStep_frame (x : Word) (s : State) :
    ∃ p r b, pkStep x s = { s with peak := p, result := r, pvalid := b } := by
  rcases pkStep_cases x s with ⟨_, _, h⟩ | ⟨_, _, h⟩ | ⟨_, _, h⟩ | ⟨_, _, h⟩ <;> rw [h] <;> exact ⟨_, _, _, rfl⟩

/-- A deviation above threshold is a positive 32-bit number (R212). -/
theorem above_toNat {x b t : Word} (h : aboveThreshold (deviation x b) t = true) :
    ((BitVec.ofInt 32 (deviation x b)).toNat : Int) = deviation x b ∧ 1 ≤ deviation x b := by
  have hx := x.isLt
  have hd : (t.toNat : Int) < deviation x b := of_decide_eq_true h
  have he : deviation x b = (x.toNat : Int) - b.toNat := rfl
  refine ⟨?_, by omega⟩
  rw [BitVec.toNat_ofInt]; omega

@[simp] theorem satIncr_toNat (w : Word) : (satIncr w).toNat = min (w.toNat + 1) 0xFFFFFFFF := by
  have := w.isLt
  simp only [satIncr, BitVec.toNat_ofNat]; omega

/-- The exact width of a closing peak (R214): the product fits in 48 bits. -/
theorem peakWidth_toNat (s : State) :
    (peakWidth s).toNat = if s.regs.wmode then s.regs.fixwidth.toNat else s.peak.widthCnt.toNat * s.regs.spacing.toNat := by
  have hw := s.peak.widthCnt.isLt
  have hs := s.regs.spacing.isLt
  have hf := s.regs.fixwidth.isLt
  have : s.peak.widthCnt.toNat * s.regs.spacing.toNat ≤ (2 ^ 32 - 1) * (2 ^ 16 - 1) := Nat.mul_le_mul (by omega) (by omega)
  unfold peakWidth
  split <;> simp only [BitVec.toNat_ofNat] <;> omega

/-- Everything the divider can return (R215). -/
theorem ratioDiv_cases (depth : Word) (width : Width48) :
    (width.toNat = 0 ∧ ratioDiv depth width = ⟨0#32, true, false⟩) ∨
    (width.toNat ≠ 0 ∧ depth.toNat * 65536 / width.toNat > 0xFFFFFFFF ∧
      ratioDiv depth width = ⟨0xFFFFFFFF#32, false, true⟩) ∨
    (width.toNat ≠ 0 ∧ depth.toNat * 65536 / width.toNat ≤ 0xFFFFFFFF ∧
      ratioDiv depth width = ⟨BitVec.ofNat 32 (depth.toNat * 65536 / width.toNat), false, false⟩) := by
  by_cases hw : width.toNat = 0
  · exact .inl ⟨hw, by simp [ratioDiv, hw]⟩
  · by_cases hq : depth.toNat * 65536 / width.toNat > 0xFFFFFFFF
    · exact .inr (.inl ⟨hw, hq, by simp only [ratioDiv, hw, hq, if_true, if_false]⟩)
    · exact .inr (.inr ⟨hw, by omega, by simp only [ratioDiv, hw, hq, if_false]⟩)

end Sys2Proof.Machine
end

