-- ==== Sys2Proof/Laws/PerInstr.lean ====
section
/-! SUPPORT. The family EncodedWord: an instruction's word is selected by its own row of the opcode map
(spec/30_encoding.md rule R98), one lemma per constructor. -/

namespace Sys2Proof.Laws.EncodedWord

/-- The instruction is well-formed and some row of the opcode map with its opcode selects its word. -/
def Statement (i : Instr) : Prop :=
  i.wf = true ∧ ∃ r ∈ opcodeMap, r.opcode = i.opcode ∧ r.format = i.opcode.format ∧ r.selects (encode i) = true

/-- A row without operand bits: the word is the row's. -/
theorem of_fixed {i : Instr} (hw : i.wf = true)
    (hm : (⟨i.opcode, i.opcode.format, encode i, 0xFFFFFFFF#32⟩ : OpcodeRow) ∈ opcodeMap) : Statement i := by
  refine ⟨hw, _, hm, rfl, rfl, ?_⟩
  have h : encode i &&& 0xFFFFFFFF#32 = encode i := by
    have : (0xFFFFFFFF#32 : Word) = BitVec.allOnes 32 := by decide
    rw [this, BitVec.and_allOnes]
  simp [OpcodeRow.selects, h]

theorem mask_shift (w : Word) (k : Nat) :
    (w &&& (BitVec.allOnes 32 <<< k)).toNat = w.toNat / 2 ^ k * 2 ^ k := by
  have h : w &&& (BitVec.allOnes 32 <<< k) = (w >>> k) <<< k := by
    ext n hn
    simp only [BitVec.getElem_and, BitVec.getElem_shiftLeft, BitVec.getElem_ushiftRight]
    by_cases h : n < k
    · simp [h]
    · have e : k + (n - k) = n := by omega
      simp [-BitVec.reduceAllOnes, BitVec.getElem_allOnes, h, e, hn]
  have := w.isLt
  rw [h, BitVec.toNat_shiftLeft, BitVec.toNat_ushiftRight, Nat.shiftRight_eq_div_pow, Nat.shiftLeft_eq,
    Nat.mod_eq_of_lt]
  exact lt_of_le_of_lt (Nat.div_mul_le_self _ _) this

/-- A row with `k` operand bits: above them the word is the row's. -/
theorem of_operand {i : Instr} {r : OpcodeRow} (k : Nat) (hw : i.wf = true) (hm : r ∈ opcodeMap)
    (ho : r.opcode = i.opcode) (hf : r.format = i.opcode.format) (hmask : r.mask = BitVec.allOnes 32 <<< k)
    (hb : (encode i).toNat / 2 ^ k * 2 ^ k = r.bits.toNat) : Statement i := by
  refine ⟨hw, r, hm, ho, hf, ?_⟩
  simp only [OpcodeRow.selects, beq_iff_eq]
  apply BitVec.eq_of_toNat_eq
  rw [hmask, mask_shift, hb]

theorem above_operand (o : Byte) (k n : Nat) (hk : k ≤ 24) (hn : n < 2 ^ k) :
    (o.toNat * 2 ^ 24 + n) / 2 ^ k * 2 ^ k = o.toNat * 2 ^ 24 := by
  obtain ⟨j, hj⟩ := Nat.exists_eq_add_of_le hk
  have e : o.toNat * 2 ^ 24 = o.toNat * 2 ^ j * 2 ^ k := by rw [hj, Nat.pow_add]; ring
  rw [e, Nat.add_comm, Nat.add_mul_div_right _ _ (Nat.two_pow_pos k), Nat.div_eq_of_lt hn, Nat.zero_add]

theorem nop : Statement .nop := of_fixed rfl (by decide)
theorem crcInit : Statement .crcInit := of_fixed rfl (by decide)
theorem crcRx : Statement .crcRx := of_fixed rfl (by decide)
theorem fchk : Statement .fchk := of_fixed rfl (by decide)
theorem rxClr : Statement .rxClr := of_fixed rfl (by decide)
theorem rxLoop : Statement .rxLoop := of_fixed rfl (by decide)
theorem rddist : Statement .rddist := of_fixed rfl (by decide)
theorem wrreg : Statement .wrreg := of_fixed rfl (by decide)
theorem decDist : Statement .decDist := of_fixed rfl (by decide)
theorem decU16 : Statement .decU16 := of_fixed rfl (by decide)
theorem decAck : Statement .decAck := of_fixed rfl (by decide)
theorem pkRst : Statement .pkRst := of_fixed rfl (by decide)
theorem pkSmp : Statement .pkSmp := of_fixed rfl (by decide)
theorem pkDec : Statement .pkDec := of_fixed rfl (by decide)

theorem byte_wf (b : Byte) : operandsFit [8] [b.toNat] = true := by
  simp only [operandsFit, Bool.and_true, decide_eq_true_eq]; exact b.isLt

theorem crcByte (imm8 : BitVec 8) : Statement (.crcByte imm8) :=
  of_operand (r := ⟨.crcByte, .byte, 0x02000000#32, 0xFFFFFF00#32⟩) 8 (byte_wf imm8) (by decide) rfl rfl
    (by decide) (by rw [encode_toNat, lowBits_crcByte_toNat]; exact above_operand 0x02#8 8 _ (by decide) imm8.isLt)

theorem rxPush (imm8 : BitVec 8) : Statement (.rxPush imm8) :=
  of_operand (r := ⟨.rxPush, .byte, 0x09000000#32, 0xFFFFFF00#32⟩) 8 (byte_wf imm8) (by decide) rfl rfl
    (by decide) (by rw [encode_toNat, lowBits_rxPush_toNat]; exact above_operand 0x09#8 8 _ (by decide) imm8.isLt)

theorem enc (imm8 : BitVec 8) : Statement (.enc imm8) :=
  of_operand (r := ⟨.enc, .byte, 0x10000000#32, 0xFFFFFF00#32⟩) 8 (byte_wf imm8) (by decide) rfl rfl
    (by decide) (by rw [encode_toNat, lowBits_enc_toNat]; exact above_operand 0x10#8 8 _ (by decide) imm8.isLt)

theorem rdreg (imm16 : BitVec 16) : Statement (.rdreg imm16) :=
  of_operand (r := ⟨.rdreg, .half, 0x12000000#32, 0xFFFF0000#32⟩) 16
    (by simp only [Instr.wf, CommandLine.wf, Instr.toLine, Instr.opcode, Opcode.format, Format.operandBits,
          Instr.operands, operandsFit, Bool.and_true, decide_eq_true_eq]; exact imm16.isLt)
    (by decide) rfl rfl (by decide) (by rw [encode_toNat, lowBits_rdreg_toNat]; exact above_operand 0x12#8 16 _ (by decide) imm16.isLt)

theorem val (len8 func8 : BitVec 8) : Statement (.val len8 func8) :=
  of_operand (r := ⟨.val, .validate, 0x20000000#32, 0xFFFF0000#32⟩) 16
    (by simp only [Instr.wf, CommandLine.wf, Instr.toLine, Instr.opcode, Opcode.format, Format.operandBits,
          Instr.operands, operandsFit, Bool.and_true, Bool.and_eq_true, decide_eq_true_eq]
        exact ⟨len8.isLt, func8.isLt⟩)
    (by decide) rfl rfl (by decide)
    (by
      have := len8.isLt
      have := func8.isLt
      rw [encode_toNat, lowBits_val_toNat]
      exact above_operand 0x20#8 16 _ (by decide) (by omega))

end Sys2Proof.Laws.EncodedWord
end

