-- ==== Sys2Proof/Laws/Step.lean ====
section
/-! SUPPORT. How an access reaches its register (spec/20_memory.md rules R61 to R65), and everything a step can do. -/

namespace Sys2Proof.Machine

@[simp] theorem Reg.ofOffset?_offset (r : Reg) : Reg.ofOffset? r.offset = some r := by cases r <;> rfl

theorem Reg.offset_of_ofOffset? {off : Nat} {r : Reg} (h : Reg.ofOffset? off = some r) : r.offset = off := by
  simpa using List.find?_some h

theorem Reg.offset_lt (r : Reg) : r.offset < 128 := by cases r <;> decide

theorem Reg.offset_aligned (r : Reg) : r.offset % 4 = 0 := by cases r <;> rfl

/-- A 4-byte access at a register's address is served at that register. -/
theorem checkAccess_reg (s : State) (r : Reg) (k : AccessKind) : checkAccess s ⟨k, regAddr s r, 4⟩ = .ok r := by
  have h1 := r.offset_lt
  have h2 := r.offset_aligned
  have hw : inWindow s ⟨k, regAddr s r, 4⟩ = true := by
    simp [inWindow, regAddr, Config.windowSize, h1]
  have hs : legalShape s ⟨k, regAddr s r, 4⟩ = true := by
    simp [legalShape, regAddr, Config.accessSize, h2]
  have he : regAddr s r - baseAddr s = r.offset := by simp [regAddr]
  rw [checkAccess, if_pos hw, if_pos hs, he, Reg.ofOffset?_offset]

theorem inWindow_iff (s : State) (a : BusAccess) :
    inWindow s a = true ↔ baseAddr s ≤ a.addr ∧ a.addr < baseAddr s + 128 := by
  simp only [inWindow, Bool.and_eq_true, decide_eq_true_eq]; rfl

theorem legalShape_iff (s : State) (a : BusAccess) :
    legalShape s a = true ↔ a.size = 4 ∧ (a.addr - baseAddr s) % 4 = 0 := by
  simp only [legalShape, Bool.and_eq_true, decide_eq_true_eq]; rfl

/-- R64: the unassigned word slots of the window. -/
theorem Reg.ofOffset?_none_iff {off : Nat} (h : off < 128) (ha : off % 4 = 0) :
    Reg.ofOffset? off = none ↔ off = 0x3C ∨ off = 0x78 ∨ off = 0x7C :=
  have key : ∀ off < 128, off % 4 = 0 → (Reg.ofOffset? off = none ↔ off = 0x3C ∨ off = 0x78 ∨ off = 0x7C) := by
    decide +kernel
  key off h ha

/-- An access that is served is the 4-byte access at its register's address. -/
theorem checkAccess_ok {s : State} {a : BusAccess} {r : Reg} (h : checkAccess s a = .ok r) :
    a.addr = regAddr s r ∧ a.size = 4 := by
  unfold checkAccess at h
  split at h
  · split at h
    · rename_i hw hs
      have h1 := (inWindow_iff s a).1 hw
      have h2 := (legalShape_iff s a).1 hs
      cases ho : Reg.ofOffset? (a.addr - baseAddr s) with
      | none => simp [ho] at h
      | some q =>
        have h3 := Reg.offset_of_ofOffset? ho
        simp only [ho, Except.ok.injEq] at h
        subst h
        unfold regAddr
        omega
    · simp at h
  · simp at h

@[simp] theorem serveAccess_load (s t : State) (r : Reg) (h : t.host.baseSlot = s.host.baseSlot) :
    serveAccess (loadOf s r) t = .next (respond (.data (readReg r t)) t) := by
  have : loadOf s r = ⟨.read, regAddr t r, 4⟩ := by simp [loadOf, regAddr, baseAddr, h]
  simp [this, serveAccess, checkAccess_reg, serveAt]

@[simp] theorem serveAccess_store (s t : State) (r : Reg) (v : Word) (h : t.host.baseSlot = s.host.baseSlot) :
    serveAccess (storeOf s r v) t = if r = .cmd then execute v t else .next (writeReg r v t) := by
  have : storeOf s r v = ⟨.write v, regAddr t r, 4⟩ := by simp [storeOf, regAddr, baseAddr, h]
  simp [this, serveAccess, checkAccess_reg, serveAt]

@[simp] theorem step_idle (s : State) (h : s.host.pending = []) : step s = .next s := by simp [step, h]

theorem step_event (s : State) (e : HostEvent) (rest : List HostEvent) :
    step { s with host.pending := e :: rest } = serveEvent e { s with host.pending := rest } := rfl

/-- Everything a served access can be: a read, a command, or a write to another register. -/
theorem serveAccess_cases {a : BusAccess} {s t : State} (h : serveAccess a s = .next t) :
    ∃ r, checkAccess s a = .ok r ∧
      ((a.kind = .read ∧ t = respond (.data (readReg r s)) s) ∨
        (∃ v, a.kind = .write v ∧ r = .cmd ∧ execute v s = .next t) ∨
        (∃ v, a.kind = .write v ∧ r ≠ .cmd ∧ t = writeReg r v s)) := by
  unfold serveAccess at h
  cases hc : checkAccess s a with
  | error f => simp [hc] at h
  | ok r =>
    simp only [hc] at h
    refine ⟨r, rfl, ?_⟩
    cases hk : a.kind with
    | read => rw [hk] at h; exact .inl ⟨rfl, by simpa [serveAt] using h.symm⟩
    | write v =>
      rw [hk] at h
      by_cases hr : r = .cmd
      · exact .inr (.inl ⟨v, rfl, hr, by simpa [serveAt, hr] using h⟩)
      · exact .inr (.inr ⟨v, rfl, hr, by simpa [serveAt, hr] using h.symm⟩)

/-- Everything a step can do. -/
theorem step_cases {s t : State} (h : step s = .next t) :
    (s.host.pending = [] ∧ t = s) ∨
    (∃ a rest, s.host.pending = .access a :: rest ∧ serveAccess a { s with host.pending := rest } = .next t) ∨
    (∃ rest, s.host.pending = .reset :: rest ∧ t = resetBlock { s with host.pending := rest }) ∨
    (∃ a rest, s.host.pending = .resetDuring a :: rest ∧ t = resetDuringAccess a { s with host.pending := rest }) := by
  unfold step at h
  cases hp : s.host.pending with
  | nil => rw [hp] at h; exact .inl ⟨rfl, by simpa using h.symm⟩
  | cons e rest =>
    rw [hp] at h
    cases e with
    | access a => exact .inr (.inl ⟨a, rest, rfl, h⟩)
    | reset => exact .inr (.inr (.inl ⟨rest, rfl, by simpa [serveEvent] using h.symm⟩))
    | resetDuring a => exact .inr (.inr (.inr ⟨a, rest, rfl, by simpa [serveEvent] using h.symm⟩))

/-! ### Commands and events do not look at what is still pending (R16, R70) -/

theorem pkStep_pending (x : Word) (s : State) (p : List HostEvent) :
    pkStep x { s with host.pending := p } = { pkStep x s with host.pending := p } := by
  rcases pkStep_cases x s with ⟨a, b, h⟩ | ⟨a, b, h⟩ | ⟨a, b, h⟩ | ⟨a, b, h⟩ <;> rw [h] <;>
    first | (simp [pkStep, a, b]; done) | (simp [pkStep, a, b]; rfl)

theorem validate_pending (len : Nat) (func : Byte) (s : State) (p : List HostEvent) :
    validate len func { s with host.pending := p } =
      ⟨(validate len func s).code, { (validate len func s).state with host.pending := p }⟩ := by
  have hb : rxByte { s with host.pending := p } 1 = rxByte s 1 := rfl
  by_cases h1 : s.rx.len.val ≠ len
  · simp only [validate, h1, if_true, ne_eq, not_false_eq_true]
  · by_cases h2 : len < 2 ∨ rxByte s 1 ≠ func
    · simp only [validate, if_neg h1, hb, if_pos h2]
    · by_cases h3 : s.regs.rxcrc = true
      · simp only [validate, if_neg h1, hb, if_neg h2, if_pos h3]; rfl
      · simp only [validate, if_neg h1, hb, if_neg h2, if_neg h3]

theorem exec_pending (i : Instr) (s : State) (p : List HostEvent) :
    ∃ t, exec i s = .next t ∧ exec i { s with host.pending := p } = .next { t with host.pending := p } := by
  cases i with
  | fchk => by_cases h : s.rx.len.val < 2 <;> simp [exec, execFchk, h] <;> rfl
  | rxPush b => by_cases h : s.rx.len.val < 16 <;> simp [exec, execRxPush, h] <;> rfl
  | val l f => simp [exec, execVal, validate_pending]; rfl
  | decDist => simp [exec, execDecDist, validate_pending]; rfl
  | decU16 => simp [exec, execDecU16, validate_pending]; rfl
  | decAck => simp [exec, execDecAck, validate_pending]; rfl
  | pkSmp => by_cases h : s.regs.blvalid <;> simp [exec, execPkSmp, h, pkStep_pending] <;> rfl
  | pkDec =>
    by_cases h : s.regs.blvalid = true
    · by_cases h2 : s.distv = true
      · refine ⟨finish .ok (pkStep (decodedSample s) { s with distv := false }), (if_pos h).trans (if_pos h2),
          ((if_pos h).trans (if_pos h2)).trans ?_⟩
        exact congrArg (fun u => Host.Outcome.next (finish .ok u)) (pkStep_pending (decodedSample s) { s with distv := false } p)
      · exact ⟨rejectSample .noData s, (if_pos h).trans (if_neg h2), (if_pos h).trans (if_neg h2)⟩
    · exact ⟨rejectSample .noBaseline s, if_neg h, if_neg h⟩
  | _ => exact ⟨_, rfl, rfl⟩

theorem execute_pending (w : Word) (s : State) (p : List HostEvent) :
    ∃ t, execute w s = .next t ∧ execute w { s with host.pending := p } = .next { t with host.pending := p } := by
  unfold execute
  split
  · exact exec_pending _ _ _
  · exact ⟨_, rfl, rfl⟩

theorem serveEvent_pending (e : HostEvent) (s : State) (p : List HostEvent) :
    (∃ t, serveEvent e s = .next t ∧ serveEvent e { s with host.pending := p } = .next { t with host.pending := p }) ∨
      (∃ f, serveEvent e s = .fault f ∧ serveEvent e { s with host.pending := p } = .fault f) := by
  cases e with
  | reset => exact .inl ⟨_, rfl, rfl⟩
  | resetDuring a =>
    cases hk : a.kind <;> exact .inl ⟨_, rfl, by simp [serveEvent, resetDuringAccess, hk]; rfl⟩
  | access a =>
    have hc : checkAccess { s with host.pending := p } a = checkAccess s a := rfl
    simp only [serveEvent, serveAccess, hc]
    cases checkAccess s a with
    | error f => exact .inr ⟨f, rfl, rfl⟩
    | ok r =>
      left
      cases a.kind with
      | read => exact ⟨_, rfl, by cases r <;> rfl⟩
      | write v =>
        by_cases hr : r = .cmd
        · simp only [serveAt, hr, if_true]; exact execute_pending _ _ _
        · simp only [serveAt, hr, if_false]; exact ⟨_, rfl, by cases r <;> rfl⟩

end Sys2Proof.Machine
end

