-- ==== Sys2Proof/Tests/Slice0.lean ====
section
/-! SUPPORT. The model's own tests: ill-formed lines and accesses refused, every constructor's word written out from the
formats of spec/30_encoding.md, one-step vectors of spec/95_test_vectors.md, and a witness for every statement that has
hypotheses. Expected values are the spec's, with the vector's section in the comment. -/

namespace Sys2Proof.Tests

set_option Elab.async false

open Sys2Proof Sys2Proof.Machine

/-! ### Helpers -/

/-- The outcome is a next state with the property. -/
def after (o : Result) (p : State → Bool) : Bool :=
  match o with
  | .next t => p t
  | .fault _ => false
  | .refused _ => false

/-- Reset, with these response bytes buffered. -/
def withRx (bytes : List Byte) : State :=
  let b := fun k => bytes.getD k 0x00#8
  { State.reset with
    rx.buf := #v[b 0, b 1, b 2, b 3, b 4, b 5, b 6, b 7, b 8, b 9, b 10, b 11, b 12, b 13, b 14, b 15]
    rx.len := Fin.ofNat 17 bytes.length }

/-- Reset, with CTRL.RXCRC = 1 and these response bytes buffered. -/
def withRxCrc (bytes : List Byte) : State := { withRx bytes with regs.rxcrc := true }

/-- Reset, with BASELINE = 1000 written and the sample in OPND. -/
def calibrated (sample : Word) : State :=
  { State.reset with regs.baseline := 1000#32, regs.blvalid := true, regs.opnd := sample }

/-- The same, in a peak that holds `w` samples and the largest deviation `d`, opened at index 2. -/
def inPeak (w d sample : Word) : State :=
  { calibrated sample with
    peak := { inpeak := true, sampleIndex := 2#32 + w, startIndex := 2#32, widthCnt := w, maxDev := d } }

/-- The golden request (R123). -/
def golden : List Byte := [0x01#8, 0x04#8, 0x00#8, 0x00#8, 0x00#8, 0x02#8, 0x71#8, 0xCB#8]

/-- The distance response of vector E2. -/
def distance : List Byte := [0x01#8, 0x04#8, 0x04#8, 0x00#8, 0x01#8, 0x23#8, 0x45#8, 0x72#8, 0x87#8]

/-- A write acknowledgement (program P4). -/
def ack : List Byte := [0x01#8, 0x06#8, 0x00#8, 0x05#8, 0x00#8, 0x01#8, 0x58#8, 0x0B#8]

/-- A single-register response (R192, R195). -/
def single : List Byte := [0x01#8, 0x04#8, 0x02#8, 0x00#8, 0x02#8, 0x38#8, 0xF1#8]

/-- Reset, with the golden request built. -/
def framed : State :=
  { State.reset with
    tx.buf := #v[0x01#8, 0x04#8, 0x00#8, 0x00#8, 0x00#8, 0x02#8, 0x71#8, 0xCB#8], tx.len := 8, crc := 0xCB71#16 }

/-! ### Well-formedness: a line that is no word is refused (R102) -/

theorem test_wf_missing_operand : (CommandLine.mk .crcByte []).wf = false := by decide
theorem test_wf_extra_operand : (CommandLine.mk .nop [0]).wf = false := by decide
theorem test_wf_byte_out_of_range : (CommandLine.mk .rxPush [256]).wf = false := by decide
theorem test_wf_half_out_of_range : (CommandLine.mk .rdreg [65536]).wf = false := by decide
theorem test_wf_val_length_out_of_range : (CommandLine.mk .val [256, 4]).wf = false := by decide
theorem test_wf_val_function_out_of_range : (CommandLine.mk .val [9, 256]).wf = false := by decide
theorem test_wf_val_missing_operand : (CommandLine.mk .val [9]).wf = false := by decide
theorem test_assemble_refuses : assemble ⟨.enc, [256]⟩ = none := by decide
/-- R102: "`VAL 9, 0x04` is 0x20000904". -/
theorem test_assemble_example : assemble ⟨.val, [9, 4]⟩ = some 0x20000904#32 := by decide

/-! ### Decoding: op in 31:24, then the operand fields, written bit by bit (R91 to R98) -/

theorem test_decode_nop : decode 0b00000000000000000000000000000000#32 = .ok .nop := by decide
theorem test_decode_crcInit : decode 0b00000001000000000000000000000000#32 = .ok .crcInit := by decide
theorem test_decode_crcByte : decode 0b00000010000000000000000010100101#32 = .ok (.crcByte 0xA5#8) := by decide
theorem test_decode_crcRx : decode 0b00000011000000000000000000000000#32 = .ok .crcRx := by decide
theorem test_decode_fchk : decode 0b00000100000000000000000000000000#32 = .ok .fchk := by decide
theorem test_decode_rxClr : decode 0b00001000000000000000000000000000#32 = .ok .rxClr := by decide
theorem test_decode_rxPush : decode 0b00001001000000000000000010000001#32 = .ok (.rxPush 0x81#8) := by decide
theorem test_decode_rxLoop : decode 0b00001010000000000000000000000000#32 = .ok .rxLoop := by decide
theorem test_decode_enc : decode 0b00010000000000000000000000000110#32 = .ok (.enc 0x06#8) := by decide
theorem test_decode_rddist : decode 0b00010001000000000000000000000000#32 = .ok .rddist := by decide
theorem test_decode_rdreg : decode 0b00010010000000001000000000000011#32 = .ok (.rdreg 0x8003#16) := by decide
theorem test_decode_wrreg : decode 0b00010011000000000000000000000000#32 = .ok .wrreg := by decide
theorem test_decode_val : decode 0b00100000000000000000100100000100#32 = .ok (.val 9#8 0x04#8) := by decide
theorem test_decode_decDist : decode 0b00100001000000000000000000000000#32 = .ok .decDist := by decide
theorem test_decode_decU16 : decode 0b00100010000000000000000000000000#32 = .ok .decU16 := by decide
theorem test_decode_decAck : decode 0b00100011000000000000000000000000#32 = .ok .decAck := by decide
theorem test_decode_pkRst : decode 0b00110000000000000000000000000000#32 = .ok .pkRst := by decide
theorem test_decode_pkSmp : decode 0b00110001000000000000000000000000#32 = .ok .pkSmp := by decide
theorem test_decode_pkDec : decode 0b00110010000000000000000000000000#32 = .ok .pkDec := by decide

/-- 95 "Command decoding": a reserved bit of each format. -/
theorem test_decode_reserved_bits :
    decode 0x00000001#32 = .error (.reservedBits .nop) ∧ decode 0x02000100#32 = .error (.reservedBits .crcByte) ∧
    decode 0x12010000#32 = .error (.reservedBits .rdreg) ∧ decode 0x20010904#32 = .error (.reservedBits .val) := by
  decide

/-- 95 "Command decoding": unassigned opcodes. -/
theorem test_decode_unknown_opcodes :
    decode 0x05000000#32 = .error (.unknownOpcode 0x05#8) ∧ decode 0x0B000000#32 = .error (.unknownOpcode 0x0B#8) ∧
    decode 0x14000000#32 = .error (.unknownOpcode 0x14#8) ∧ decode 0x24000000#32 = .error (.unknownOpcode 0x24#8) ∧
    decode 0x33000000#32 = .error (.unknownOpcode 0x33#8) ∧ decode 0xFF000000#32 = .error (.unknownOpcode 0xFF#8) := by
  refine ⟨?_, ?_, ?_, ?_, ?_, ?_⟩ <;> decide

theorem test_decodeTableWord : decodeTableWord 32 0x12000003 = some (.rdreg 0x0003#16) := by decide

/-! ### Bus (95 "Bus accesses") -/

theorem test_bus_read_cmd : readReg .cmd (calibrated 5#32) = 0#32 := by decide
theorem test_bus_ctrl_width : readReg .ctrl (writeReg .ctrl 0xFFFFFFFF#32 State.reset) = 3#32 := by decide
theorem test_bus_spacing_width :
    readReg .spacing (writeReg .spacing 0x12345678#32 State.reset) = 0x00005678#32 := by decide
theorem test_bus_devaddr_width : readReg .devaddr (writeReg .devaddr 0x1FF#32 State.reset) = 0xFF#32 := by decide
theorem test_bus_baseline_zero : readReg .status (writeReg .baseline 0#32 State.reset) = 0x080#32 := by decide
theorem test_bus_read_only : writeReg .crc 0x1234#32 State.reset = State.reset := by decide
/-- R22: 29 of the 32 word slots are assigned, no two registers at one offset. -/
theorem test_bus_offsets : Reg.all.length = 29 ∧ (Reg.all.map Reg.offset).Nodup := by decide
/-- Refused: a 4-byte access at offset 0x06, a 1-byte and an 8-byte access, offset 0x3C, and an access past the window. -/
theorem test_bus_refused :
    checkAccess State.reset ⟨.read, 0x06, 4⟩ = .error (.busError 0x06) ∧
    checkAccess State.reset ⟨.read, 0x04, 1⟩ = .error (.busError 0x04) ∧
    checkAccess State.reset ⟨.write 0#32, 0x08, 8⟩ = .error (.busError 0x08) ∧
    checkAccess State.reset ⟨.read, 0x3C, 4⟩ = .error (.busError 0x3C) ∧
    checkAccess State.reset ⟨.read, 0x80, 4⟩ = .error (.outsideWindow 0x80) := by
  refine ⟨rfl, rfl, rfl, rfl, rfl⟩
/-- The first command after reset: `CRC.BYTE 0x01` leaves CRC = 0x807E (95 "CRC"). -/
theorem test_step_first_command :
    after (step (State.reset.withFetchWord 32 0x02000001)) (fun t => t.crc == 0x807E#16 && t.host.pending == []) = true := by
  decide +kernel

/-! ### One step of each instruction (95 "L2") -/

theorem test_nop : after (exec .nop { State.reset with err := 1#4 }) (· == State.reset) = true := by decide +kernel
theorem test_crcInit : after (exec .crcInit { State.reset with crc := 0x1234#16 }) (· == State.reset) = true := by
  decide +kernel
theorem test_crcByte_01 : after (exec (.crcByte 0x01#8) State.reset) (·.crc == 0x807E#16) = true := by decide +kernel
theorem test_crcByte_00 : after (exec (.crcByte 0x00#8) State.reset) (·.crc == 0x40BF#16) = true := by decide +kernel
theorem test_crcRx_golden : after (exec .crcRx (withRx golden)) (·.crc == 0x0000#16) = true := by decide +kernel
theorem test_crcRx_empty : after (exec .crcRx framed) (·.crc == 0xFFFF#16) = true := by decide +kernel
theorem test_fchk_golden :
    after (exec .fchk (withRx golden)) (fun t => t.err == 0#4 && t.crc == 0xCB71#16) = true := by decide +kernel
theorem test_fchk_wrong_last_byte :
    after (exec .fchk (withRx (golden.take 7 ++ [0xCA#8]))) (fun t => t.err == 3#4 && t.crc == 0xCB71#16) = true := by
  decide +kernel
theorem test_rxClr :
    after (exec .rxClr { withRx distance with distv := true, decValue := 7#32 })
      (fun t => t.rx == State.reset.rx && t.distv && t.decValue == 7#32) = true := by decide +kernel
theorem test_rxPush :
    after (exec (.rxPush 0x04#8) (withRx [0x01#8, 0x04#8]))
      (fun t => readReg .rxw0 t == 0x00040401#32 && t.rx.len == 3) = true := by decide +kernel
theorem test_rxPush_overflow :
    after (exec (.rxPush 0xAA#8) (withRx (golden ++ golden)))
      (fun t => t.err == 4#4 && t.rx == (withRx (golden ++ golden)).rx) = true := by decide +kernel
theorem test_rxLoop :
    after (exec .rxLoop { framed with rx := (withRx (golden ++ ack)).rx })
      (fun t => t.rx == (withRx golden).rx && readReg .rxw1 t == 0xCB710200#32) = true := by decide +kernel
theorem test_enc_all_ones :
    after (exec (.enc 0xFF#8) { State.reset with regs.devaddr := 0xFF#8, regs.opnd := 0xFFFFFFFF#32 })
      (fun t => readReg .txw0 t == 0xFFFFFFFF#32 && readReg .txw1 t == 0x9401FFFF#32 && t.crc == 0x9401#16) = true := by
  decide +kernel
theorem test_enc_read_register :
    after (exec (.enc 0x04#8) { State.reset with regs.opnd := 0x00030001#32 })
      (fun t => readReg .txw0 t == 0x03000401#32 && t.crc == 0xCAC1#16) = true := by decide +kernel
theorem test_rddist :
    after (exec .rddist { State.reset with regs.devaddr := 0xF7#8 })
      (fun t => readReg .txw0 t == 0x000004F7#32 && readReg .txw1 t == 0x5D650200#32 && t.tx.len == 8) = true := by
  decide +kernel
theorem test_rdreg :
    after (exec (.rdreg 0xFFFF#16) State.reset)
      (fun t => readReg .txw0 t == 0xFFFF0401#32 && readReg .txw1 t == 0xEE310100#32) = true := by decide +kernel
theorem test_wrreg :
    after (exec .wrreg { State.reset with regs.opnd := 0x00010002#32 })
      (fun t => readReg .txw0 t == 0x01000601#32 && readReg .txw1 t == 0xCB590200#32) = true := by decide +kernel
theorem test_val_function : after (exec (.val 7#8 0x06#8) (withRx single)) (·.err == 2#4) = true := by decide +kernel
theorem test_val_crc :
    after (exec (.val 2#8 0xFF#8) (withRxCrc [0xFF#8, 0xFF#8])) (fun t => t.err == 0#4 && t.crc == 0xFFFF#16) = true := by
  decide +kernel
theorem test_decDist_wrong_trailer :
    after (exec .decDist (withRxCrc (distance.take 7 ++ [0x00#8, 0x00#8])))
      (fun t => t.err == 3#4 && t.decValue == 0#32 && !t.distv && t.crc == 0x8772#16) = true := by decide +kernel
theorem test_decDist_e2 :
    after (exec .decDist (withRxCrc distance))
      (fun t => t.err == 0#4 && t.decValue == 0x00012345#32 && t.distv && t.crc == 0x8772#16) = true := by decide +kernel
theorem test_decU16 :
    after (exec .decU16 { withRx [0x01#8, 0x04#8, 0x02#8, 0xFF#8, 0xFF#8, 0x00#8, 0x00#8] with distv := true })
      (fun t => t.err == 0#4 && t.decValue == 0x0000FFFF#32 && !t.distv) = true := by decide +kernel
theorem test_decAck :
    after (exec .decAck (withRx ack)) (fun t => t.err == 0#4 && t.decValue == 1#32) = true := by decide +kernel
theorem test_decAck_wrong_crc :
    after (exec .decAck (withRxCrc (ack.take 7 ++ [0x0C#8]))) (fun t => t.err == 3#4 && t.crc == 0x0B58#16) = true := by
  decide +kernel
/-- "only BASELINE = 1000, OPND = 1500 and STATUS = 0x080 differ from reset". -/
theorem test_pkRst :
    after (exec .pkRst { inPeak 1#32 500#32 1500#32 with pvalid := true, result.count := 2#32, result.wsamples := 2#32 })
      (· == calibrated 1500#32) = true := by decide +kernel
/-- E5 at index 5: 3 samples, 0.90 mm wide, 2.00 mm deep, ratio 145635 / 65536. -/
theorem test_pkSmp_closes :
    after (exec .pkSmp (inPeak 3#32 200#32 1020#32))
      (fun t => t.result == ⟨3#32, 90#48, 200#32, 0x000238E3#32, false, false, false, 1#32⟩ &&
        readReg .status t == 0x0A0#32 && t.peak.sampleIndex == 6#32 && t.peak.widthCnt == 0#32) = true := by
  decide +kernel
/-- The last peak vector of 95: a saturated count, and the width's 48 bits. -/
theorem test_pkSmp_saturated :
    after (exec .pkSmp
        { inPeak 0xFFFFFFFF#32 5#32 0#32 with regs.baseline := 0#32, regs.spacing := 0xFFFF#16 })
      (fun t => readReg .resWidthLo t == 0xFFFF0001#32 && readReg .resWidthHi t == 0xFFFE#32 &&
        readReg .resRatio t == 0#32 && readReg .status t == 0x4A0#32) = true := by decide +kernel
theorem test_pkDec :
    after (exec .pkDec { inPeak 1#32 150#32 0#32 with distv := true, decValue := 1200#32 })
      (fun t => t.peak.maxDev == 200#32 && t.peak.widthCnt == 2#32 && !t.distv && t.err == 0#4) = true := by
  decide +kernel
theorem test_pkDec_no_data : after (exec .pkDec (calibrated 0#32)) (readReg .status · == 0x085#32) = true := by
  decide +kernel

/-! ### The ratio divider's corners (95 E6 and "Peak engine") -/

theorem test_ratio_zero_width : ratioDiv 101#32 0#48 = ⟨0#32, true, false⟩ := by decide +kernel
theorem test_ratio_one_sample : ratioDiv 101#32 30#48 = ⟨0x00035DDD#32, false, false⟩ := by decide +kernel
theorem test_ratio_quotient_2_pow_32 : ratioDiv 65536#32 1#48 = ⟨0xFFFFFFFF#32, false, true⟩ := by decide +kernel
theorem test_ratio_largest_unsaturated : ratioDiv 65535#32 1#48 = ⟨0xFFFF0000#32, false, false⟩ := by decide +kernel

/-! ### The host's formulas (E4, R104) -/

theorem test_calibration :
    calibratedBaseline [] = none ∧ calibratedBaseline [1000#32, 1001#32] = some 1001#32 ∧
    calibratedBaseline [999#32, 1000#32] = some 1000#32 ∧
    calibratedBaseline [1000#32, 1001#32, 1001#32] = some 1001#32 := by decide
theorem test_expand_sample :
    expand State.reset (.sample 5#32) = [⟨.write 5#32, 0x10, 4⟩, ⟨.write 0x31000000#32, 0x00, 4⟩] := by decide
theorem test_collect_addresses :
    (collectResult State.reset).map (·.addr) = [0x60, 0x64, 0x68, 0x6C, 0x70, 0x04] := by decide

/-! ### Witnesses: concrete data that meets a statement's hypotheses, one for each clause at a boundary -/

theorem witness_EncodeDecodeRoundTrip : decode 0x2000FFFF#32 = .ok (.val 0xFF#8 0xFF#8) := by decide

theorem witness_OpcodeMapSelectsInstruction :
    (∃ r ∈ opcodeMap, 0x120000FF#32 &&& r.mask = r.bits) ∧ (∀ r ∈ opcodeMap, 0x120100FF#32 &&& r.mask ≠ r.bits) := by
  decide

theorem witness_IllegalWordOnlySetsErr : ∀ r ∈ opcodeMap, 0xFFFFFFFF#32 &&& r.mask ≠ r.bits := by decide

/-- Both ends of each range of unlisted opcodes. -/
theorem witness_ReservedEncodingsAreIllegal :
    [0x05000000#32, 0x07000000#32, 0x0B000000#32, 0x0F000000#32, 0x14000000#32, 0x1F000000#32, 0x24000000#32,
      0x2F000000#32, 0x33000000#32, 0xFF000000#32].map (fun w => (opField w).toNat) =
      [0x05, 0x07, 0x0B, 0x0F, 0x14, 0x1F, 0x24, 0x2F, 0x33, 0xFF] := by
  decide

/-- The lowest and the highest reserved bit of each format: the opcode, and the reserved field, which is not 0. -/
theorem witness_ReservedEncodingsAreIllegal_bits :
    [0x01000001#32, 0x01800000#32].map (fun w => (opField w, (lowField w).toNat)) =
      [(Opcode.crcInit.byte, 1), (Opcode.crcInit.byte, 0x800000)] ∧
    [0x10000100#32, 0x10800000#32].map (fun w => (opField w, (lowField w).toNat / 2 ^ 8)) =
      [(Opcode.enc.byte, 1), (Opcode.enc.byte, 0x8000)] ∧
    [0x12010000#32, 0x12800000#32].map (fun w => (opField w, (lowField w).toNat / 2 ^ 16)) =
      [(Opcode.rdreg.byte, 1), (Opcode.rdreg.byte, 0x80)] ∧
    [0x20010000#32, 0x20800000#32].map (fun w => (opField w, (lowField w).toNat / 2 ^ 16)) =
      [(Opcode.val.byte, 1), (Opcode.val.byte, 0x80)] := by
  decide

theorem witness_AssemblerMatchesEncoder :
    assemble ⟨.rdreg, [0xFFFF]⟩ = some 0x1200FFFF#32 ∧ (CommandLine.mk .rdreg [0x10000]).wf = false := by decide

theorem witness_StepRunsDecodedCommand :
    decode 0x31000000#32 = .ok .pkSmp ∧ decodeTableWord 32 0x31000000 = some .pkSmp := by decide

/-- A step with nothing pending, and one with a reset pending. -/
theorem witness_StepServesOneEvent :
    (∃ t, step State.reset = .next t) ∧ ∃ t, step { framed with host.pending := [.reset] } = .next t :=
  ⟨⟨_, rfl⟩, ⟨_, rfl⟩⟩

/-- A window at BASE = 0x180: every clause of the first part, and both ends of the served offsets. -/
theorem witness_MalformedAccessIsBusError :
    let s := { State.reset with host.baseSlot := 3 }
    (∀ a ∈ [(⟨.read, 0x180, 1⟩ : BusAccess), ⟨.read, 0x1FC, 8⟩, ⟨.write 0#32, 0x1FF, 4⟩, ⟨.read, 0x1BC, 4⟩,
        ⟨.read, 0x1F8, 4⟩, ⟨.write 0#32, 0x1FC, 4⟩],
      baseAddr s ≤ a.addr ∧ a.addr < baseAddr s + 0x80 ∧
        (a.size ≠ 4 ∨ (a.addr - baseAddr s) % 4 ≠ 0 ∨ a.addr = baseAddr s + 0x3C ∨ a.addr = baseAddr s + 0x78 ∨
          a.addr = baseAddr s + 0x7C)) ∧
    (∀ a ∈ [(⟨.read, 0x180, 4⟩ : BusAccess), ⟨.write 0#32, 0x1F4, 4⟩],
      baseAddr s ≤ a.addr ∧ a.addr < baseAddr s + 0x80 ∧ a.size = 4 ∧ (a.addr - baseAddr s) % 4 = 0 ∧
        a.addr ≠ baseAddr s + 0x3C ∧ a.addr ≠ baseAddr s + 0x78 ∧ a.addr ≠ baseAddr s + 0x7C) := by
  decide

theorem witness_OutsideWindowIsNotServed :
    let s := { State.reset with host.baseSlot := 3 }
    ∀ a ∈ [(⟨.read, 0x17F, 4⟩ : BusAccess), ⟨.write 0#32, 0x200, 4⟩],
      a.addr < baseAddr s ∨ baseAddr s + 0x80 ≤ a.addr := by
  decide

/-- A read of CMD, and a write to another register, each served. -/
theorem witness_OnlyCommandsChangeTheEngines :
    (∃ t, step { framed with host.pending := [.access (loadOf framed .cmd)] } = .next t) ∧
    ((storeOf framed .opnd 7#32).addr ≠ regAddr framed .cmd ∧
      ∃ t, step { framed with host.pending := [.access (storeOf framed .opnd 7#32)] } = .next t) :=
  ⟨⟨_, rfl⟩, by decide, ⟨_, rfl⟩⟩

theorem witness_ResetDiscardsOverlappingAccess :
    (∃ v, (storeOf framed .cmd 0#32).kind = .write v) ∧ (loadOf framed .crc).kind = .read := ⟨⟨_, rfl⟩, rfl⟩

theorem witness_CrcInitSetsInitialValue :
    opField 0x01000001#32 = 0x01#8 ∧ lowField 0x01000001#32 ≠ 0#24 := by decide

theorem witness_CrcRxCoversTheBuffer :
    framed.rx.len.val = 0 ∧
    (let m := golden.take 6
     rxBytes (withRx golden) = m ++ [loByte (crc16 m), hiByte (crc16 m)]) := by
  decide +kernel

theorem witness_BuiltFrameChecksOut : isFramer (.enc 0x03#8) = true ∧ isFramer .wrreg = true := by decide

/-- Two states that differ in their buffers and agree in DEVADDR and OPND. -/
theorem witness_FrameDependsOnOperandsOnly :
    isFramer .rddist = true ∧ framed.regs.devaddr = (withRx ack).regs.devaddr ∧
      framed.regs.opnd = (withRx ack).regs.opnd ∧ framed ≠ withRx ack := by
  decide +kernel

/-- Each clause of the request's operands. -/
theorem witness_RequestTransactionSendsFrame :
    (ClientOp.readLaserStatus, 0x0005#16) ∈ [(ClientOp.readMode, 0x0001#16), (.readLightIntensity, 0x0002#16),
      (.readThreshold, 0x0003#16), (.readAnalogMode, 0x0004#16), (.readLaserStatus, 0x0005#16)] ∧
    ∃ r v, ClientOp.writeRegister 0xFFFF#16 0x0000#16 = .writeRegister r v := by
  exact ⟨by decide, _, _, rfl⟩

theorem witness_NopOnlyReportsSuccess : opField 0x00000001#32 = 0x00#8 ∧ lowField 0x00000001#32 ≠ 0#24 := by decide

theorem witness_RxClrEmptiesBuffer : isDecoder .decAck = true ∧ (255#8 : Byte) ≠ 0#8 := by decide

theorem witness_RxPushAppendsOrOverflows :
    (withRx (golden ++ single)).rx.len.val = 15 ∧ (withRx (golden ++ ack)).rx.len.val = 16 ∧
      isDecoder .decDist = true := by
  decide +kernel

theorem witness_RxLoopCopiesRequest : State.reset.tx.len.val = 0 ∧ framed.tx.len.val = 8 := by decide

/-- A buffer that meets the invariant and is not empty. -/
theorem witness_BufferCommandsOwnRxBuffer :
    (∃ t, exec (.rxPush 0x01#8) (withRx golden) = .next t) ∧ isRxWriter .crcRx = false ∧
      RxTailZero (withRx golden) := by
  refine ⟨⟨_, rfl⟩, rfl, ?_⟩
  unfold RxTailZero
  decide +kernel

/-- The four clauses, at length 255, 0, 1 and 2 of the range and at a real response. -/
theorem witness_ValResultCodes :
    (withRx golden).rx.len.val ≠ (255#8 : Byte).toNat ∧
    (State.reset.rx.len.val = (0#8 : Byte).toNat ∧ (0#8 : Byte).toNat < 2) ∧
    ((withRx [0x01#8]).rx.len.val = (1#8 : Byte).toNat ∧ (1#8 : Byte).toNat < 2) ∧
    ((withRx single).rx.len.val = (7#8 : Byte).toNat ∧ rxByte (withRx single) 1 ≠ 0x06#8) ∧
    ((withRxCrc [0xFF#8, 0xFF#8]).rx.len.val = (2#8 : Byte).toNat ∧ 2 ≤ (2#8 : Byte).toNat ∧
      rxByte (withRxCrc [0xFF#8, 0xFF#8]) 1 = 0xFF#8 ∧ (withRxCrc [0xFF#8, 0xFF#8]).regs.rxcrc = true) ∧
    ((withRx single).rx.len.val = (7#8 : Byte).toNat ∧ 2 ≤ (7#8 : Byte).toNat ∧ rxByte (withRx single) 1 = 0x04#8 ∧
      (withRx single).regs.rxcrc = false) := by
  decide +kernel

theorem witness_FchkChecksTrailingCrc :
    (withRx [0x01#8]).rx.len.val < 2 ∧ 2 ≤ (withRx [0xFF#8, 0xFF#8]).rx.len.val := by decide +kernel

/-- A valid and an invalid distance response. -/
theorem witness_DecDistDecodesDistance :
    after (exec .decDist (withRx distance)) (·.err == 0#4) = true ∧
      after (exec .decDist (withRx single)) (·.err == 1#4) = true := by
  decide +kernel

/-- The buffers differ in bytes 0, 2, 7 and 8 only. -/
theorem witness_UncheckedBytesDoNotMatter :
    let s := withRx distance
    let buf := (withRx [0x09#8, 0x04#8, 0x00#8, 0x00#8, 0x01#8, 0x23#8, 0x45#8, 0x00#8, 0x00#8]).rx.buf
    s.regs.rxcrc = false ∧ buf ≠ s.rx.buf ∧ ∀ k, k ∈ [1, 3, 4, 5, 6] → buf.toList.getD k 0x00#8 = rxByte s k := by
  decide +kernel

/-- A Modbus-style error reply to function 0x06 (95 "Validator"). -/
theorem witness_ErrorReplyFailsValidation :
    let s := withRx [0x01#8, 0x86#8, 0x02#8, 0x00#8, 0x00#8]
    s.rx.len.val = 5 ∧ (0x06#8 : Byte).toNat < 0x80 ∧ rxByte s 1 = 0x06#8 ||| 0x80#8 ∧ isDecoder .decAck = true := by
  decide +kernel

/-- Every clause: one byte short, one too many, a wrong function, the right response. -/
theorem witness_ReceivedDistanceDecodes :
    State.reset.regs.rxcrc = false ∧ (distance.take 8).length ≠ 9 ∧ (distance ++ [0x00#8]).length ≠ 9 ∧
    (distance.set 1 0x84#8).length = 9 ∧ (distance.set 1 0x84#8).getD 1 0x00#8 ≠ 0x04#8 ∧
    distance.length = 9 ∧ distance.getD 1 0x00#8 = 0x04#8 := by
  decide

theorem witness_SampleCommandsAreRejected :
    State.reset.regs.blvalid = false ∧ (calibrated 0#32).regs.blvalid = true ∧ (calibrated 0#32).distv = false := by
  decide

/-- A deviation equal to THRESHOLD and one above it, in Idle and in InPeak. -/
theorem witness_PkSmpTransitions :
    let dev := fun s : State => (s.regs.opnd.toNat : Int) - (s.regs.baseline.toNat : Int)
    (calibrated 1100#32).regs.blvalid = true ∧
    ((calibrated 1100#32).peak.inpeak = false ∧ dev (calibrated 1100#32) = ((calibrated 1100#32).regs.threshold.toNat : Int)) ∧
    ((calibrated 1101#32).peak.inpeak = false ∧ dev (calibrated 1101#32) > ((calibrated 1101#32).regs.threshold.toNat : Int)) ∧
    ((inPeak 1#32 150#32 1101#32).peak.inpeak = true ∧
      dev (inPeak 1#32 150#32 1101#32) > ((inPeak 1#32 150#32 1101#32).regs.threshold.toNat : Int)) := by
  decide +kernel

/-- A deviation equal to THRESHOLD in a peak; with SPACING = 0 its width is 0. -/
theorem witness_PkSmpClosesPeakAndEmits :
    let s := inPeak 1#32 101#32 1100#32
    s.regs.blvalid = true ∧ s.peak.inpeak = true ∧
      (s.regs.opnd.toNat : Int) - (s.regs.baseline.toNat : Int) ≤ (s.regs.threshold.toNat : Int) ∧
      (peakWidth s).toNat ≠ 0 ∧ (peakWidth { s with regs.spacing := 0#16 }).toNat = 0 := by
  decide +kernel

theorem witness_PkDecFeedsDecodedDistanceOnce :
    let s := { calibrated 0#32 with distv := true, decValue := 1200#32 }
    s.regs.blvalid = true ∧ s.distv = true := by
  decide

theorem witness_RatioIsTruncatedQuotient :
    (90#48 : Width48).toNat ≠ 0 ∧ (ratioDiv 200#32 90#48).rsat = false := by decide +kernel

theorem witness_OnePeakEmitsOneResult :
    let s := calibrated 0#32
    s.regs.blvalid = true ∧ s.peak.inpeak = false ∧ [1150#32, 1200#32, 1101#32] ≠ ([] : List Word) ∧
      (∀ x ∈ [1150#32, 1200#32, 1101#32], deviation x s.regs.baseline > (s.regs.threshold.toNat : Int)) ∧
      deviation 1100#32 s.regs.baseline ≤ (s.regs.threshold.toNat : Int) := by
  refine ⟨rfl, rfl, by simp, fun x hx => ?_, by decide⟩
  simp only [List.mem_cons, List.not_mem_nil, or_false] at hx
  rcases hx with rfl | rfl | rfl <;> decide

theorem witness_CommandsWriteOnlyTheirState :
    (∃ t, exec .nop framed = .next t) ∧ isCrcWriter .nop = false ∧ isFramer .nop = false ∧ isRxWriter .nop = false ∧
      isDecoder .nop = false ∧ isPeak .nop = false :=
  ⟨⟨_, rfl⟩, rfl, rfl, rfl, rfl, rfl⟩

/-- Each clause: a decode command of each kind, a PK.DEC that consumes and one that fails, another command. -/
theorem witness_DistvRule :
    (∃ t, exec .decDist (withRx distance) = .next t) ∧ (∃ t, exec .decU16 (withRx single) = .next t) ∧
    after (exec .pkDec { calibrated 0#32 with distv := true }) (·.err == 0#4) = true ∧
    after (exec .pkDec (calibrated 0#32)) (·.err == 5#4) = true ∧
    (∃ t, exec .pkSmp (calibrated 0#32) = .next t) ∧ isDecoder .pkSmp = false := by
  refine ⟨⟨_, rfl⟩, ⟨_, rfl⟩, ?_, ?_, ⟨_, rfl⟩, rfl⟩ <;> decide +kernel

/-- Each clause: a command that emits, one that fails, PK.RST, another command. -/
theorem witness_PvalidRule :
    after (exec .pkSmp (inPeak 1#32 101#32 1100#32)) (·.pvalid) = true ∧
    after (exec .pkSmp State.reset) (·.err == 6#4) = true ∧ (∃ t, exec .pkRst framed = .next t) ∧
    (∃ t, exec .rxClr framed = .next t) ∧ isPeak .rxClr = false := by
  refine ⟨?_, ?_, ⟨_, rfl⟩, ⟨_, rfl⟩, rfl⟩ <;> decide +kernel

/-- Each clause: a write to BASELINE, another access, a reset, a reset over an access. -/
theorem witness_BlvalidRule :
    ((storeOf framed .baseline 5#32).addr = regAddr framed .baseline ∧
      ∃ t, step { framed with host.pending := [.access (storeOf framed .baseline 5#32)] } = .next t) ∧
    ((storeOf framed .opnd 5#32).addr ≠ regAddr framed .baseline ∧
      ∃ t, step { framed with host.pending := [.access (storeOf framed .opnd 5#32)] } = .next t) ∧
    (∃ t, step { framed with host.pending := [.reset] } = .next t) ∧
    (∃ t, step { framed with host.pending := [.resetDuring (loadOf framed .crc)] } = .next t) ∧
    State.reset.regs.blvalid = false :=
  ⟨⟨rfl, _, rfl⟩, ⟨by decide, _, rfl⟩, ⟨_, rfl⟩, ⟨_, rfl⟩, rfl⟩

/-- A state in the middle of a run: a frame built, a response buffered, a peak open; its next step runs PK.SMP. -/
def running : State :=
  { inPeak 3#32 200#32 1020#32 with
    tx := framed.tx, rx := (withRx distance).rx, crc := 0xCB71#16
    host.pending := [.access (storeOf State.reset .cmd 0x31000000#32)] }

theorem witness_StepKeepsInvariant : Inv running ∧ after (step running) (fun _ => true) = true := by
  refine ⟨⟨?_, ?_, ?_, ?_, ?_, ?_, ?_, ?_⟩, by decide +kernel⟩
  · unfold ErrInv; decide +kernel
  · unfold TxLenInv; decide +kernel
  · unfold TxFrameInv; decide +kernel
  · unfold RxTailZero; decide +kernel
  · unfold PeakInv; decide +kernel
  · unfold WidthCountInv; decide +kernel
  · unfold BaselineInv; decide +kernel
  · unfold ResultInv; decide +kernel

theorem witness_CalibratedBaselineIsRoundedMean : [0xFFFFFFFF#32, 0x00000000#32] ≠ ([] : List Word) := by decide

end Sys2Proof.Tests
end

section
/-! SUPPORT. Scope of a step (spec/00_scope.md R16, R17, R61, R70): what serving an event keeps of the host's side, and that
serving a sequence of events is serving its parts in order. -/

namespace Sys2Proof.Machine

/-! ### What commands and register writes keep of the host's side (R56, R65) -/

@[simp] theorem clearRx_host (s : State) : (clearRx s).host = s.host := rfl

@[simp] theorem appendRx_host (b : Byte) (s : State) (h : s.rx.len.val < 16) : (appendRx b s h).host = s.host := rfl

@[simp] theorem loopRx_host (s : State) : (loopRx s).host = s.host := rfl

@[simp] theorem storeFrame_host (a f : Byte) (r v : Half) (s : State) : (storeFrame a f r v s).host = s.host := rfl

@[simp] theorem checkCrc_host (n : Nat) (s : State) : (checkCrc n s).state.host = s.host := rfl

@[simp] theorem rejectSample_host (e : ResultCode) (s : State) : (rejectSample e s).host = s.host := rfl

@[simp] theorem validate_host (len : Nat) (func : Byte) (s : State) : (validate len func s).state.host = s.host := by
  obtain ⟨c, h⟩ := validate_state len func s
  rw [h]

@[simp] theorem finishDecode_host (c : Checked) (value : Word) (distance : Bool) :
    (finishDecode c value distance).host = c.state.host := rfl

@[simp] theorem pkStep_host (x : Word) (s : State) : (pkStep x s).host = s.host := by
  obtain ⟨p, r, b, h⟩ := pkStep_frame x s
  rw [h]

@[simp] theorem writeReg_host (r : Reg) (v : Word) (s : State) : (writeReg r v s).host = s.host := by
  cases r <;> rfl

/-- No command touches the host's side of the bus: a command answers nothing (R17, R56). -/
theorem exec_host {i : Instr} {s t : State} (h : exec i s = .next t) : t.host = s.host := by
  cases i with
  | fchk =>
    simp only [exec, execFchk] at h
    split at h <;> (obtain rfl := Host.Outcome.next.inj h; simp)
  | rxPush b =>
    simp only [exec, execRxPush] at h
    split at h <;> (obtain rfl := Host.Outcome.next.inj h; simp)
  | pkSmp =>
    simp only [exec, execPkSmp] at h
    split at h <;> (obtain rfl := Host.Outcome.next.inj h; simp)
  | pkDec =>
    simp only [exec, execPkDec] at h
    split at h
    · split at h <;> (obtain rfl := Host.Outcome.next.inj h; simp)
    · obtain rfl := Host.Outcome.next.inj h
      rfl
  | val l f => obtain rfl := Host.Outcome.next.inj h; simp
  | decDist => obtain rfl := Host.Outcome.next.inj h; simp
  | decU16 => obtain rfl := Host.Outcome.next.inj h; simp
  | decAck => obtain rfl := Host.Outcome.next.inj h; simp
  | _ => obtain rfl := Host.Outcome.next.inj h; rfl

/-- R90: neither does a command word, legal or illegal. -/
theorem execute_host {w : Word} {s t : State} (h : execute w s = .next t) : t.host = s.host := by
  unfold execute at h
  split at h
  · exact exec_host h
  · obtain rfl := Host.Outcome.next.inj h
    rfl

/-! ### What serving an event keeps (R16, R61, R70) -/

/-- From `s` to `t` the block stayed in place, took nothing more from the host's sequence and answered at most once. -/
structure AnswersAtMostOnce (s t : State) : Prop where
  pending : t.host.pending = s.host.pending
  baseSlot : t.host.baseSlot = s.host.baseSlot
  responses : ∃ new, t.host.responses = s.host.responses ++ new ∧ new.length ≤ 1

theorem AnswersAtMostOnce.of_host_eq {s t : State} (h : t.host = s.host) : AnswersAtMostOnce s t :=
  ⟨by rw [h], by rw [h], [], by simp [h]⟩

theorem answersAtMostOnce_respond (r : Response) (s : State) : AnswersAtMostOnce s (respond r s) :=
  ⟨rfl, rfl, [r], rfl, le_rfl⟩

/-- R63, R65, R90: a served read is answered; a write and a command are not. -/
theorem serveAccess_answersAtMostOnce {a : BusAccess} {s t : State} (h : serveAccess a s = .next t) :
    AnswersAtMostOnce s t := by
  obtain ⟨r, -, ⟨-, rfl⟩ | ⟨v, -, -, hx⟩ | ⟨v, -, -, rfl⟩⟩ := serveAccess_cases h
  · exact answersAtMostOnce_respond _ s
  · exact .of_host_eq (execute_host hx)
  · exact .of_host_eq (writeReg_host r v s)

/-- R281: of the accesses a reset overlaps, only a read is answered. -/
theorem resetDuringAccess_answersAtMostOnce (a : BusAccess) (s : State) :
    AnswersAtMostOnce s (resetDuringAccess a s) := by
  unfold resetDuringAccess
  cases a.kind with
  | read => exact ⟨rfl, rfl, [_], rfl, le_rfl⟩
  | write v => exact .of_host_eq (resetBlock_host s)

/-- A step, idle or not, answers at most once and leaves the rest of the sequence still to come. -/
theorem step_answersAtMostOnce {s t : State} (h : step s = .next t) :
    AnswersAtMostOnce { s with host.pending := s.host.pending.tail } t := by
  obtain ⟨hp, rfl⟩ | ⟨a, rest, hp, ha⟩ | ⟨rest, hp, rfl⟩ | ⟨a, rest, hp, rfl⟩ := step_cases h <;>
    rw [hp, List.tail]
  · exact ⟨hp, rfl, [], by simp⟩
  · exact serveAccess_answersAtMostOnce ha
  · exact .of_host_eq (resetBlock_host _)
  · exact resetDuringAccess_answersAtMostOnce a _

/-- Settles O9: the host's side after a step is what serving its one event leaves of it. -/
theorem stepServesOneEvent : Obligations.StepServesOneEvent := by
  intro s t h
  obtain ⟨hp, hb, hr⟩ := step_answersAtMostOnce h
  refine ⟨hp, fun hidle => ?_, hb, hr⟩
  rw [step_idle s hidle] at h
  exact (Host.Outcome.next.inj h).symm

/-! ### A sequence of events is served in order (R17, R70) -/

/-- What follows an event in the host's sequence plays no part in how the event is served, refused accesses included. -/
theorem stepOn_cons (s : State) (e : HostEvent) (rest : List HostEvent) :
    stepOn { s with host.pending := e :: rest } =
      { stepOn { s with host.pending := [e] } with host.pending := rest } := by
  simp only [stepOn, step_event]
  obtain ⟨t, h, hrest⟩ | ⟨f, h, hrest⟩ := serveEvent_pending e { s with host.pending := [] } rest
  · rw [h, hrest]
  · rw [h, hrest]
    cases f <;> rfl

theorem outcome_nil (s : State) : outcome { s with host.pending := [] } = { s with host.pending := [] } := rfl

/-- The first event is served, and the outcome is that of the rest from the state it leaves. -/
theorem outcome_cons (s : State) (e : HostEvent) (rest : List HostEvent) :
    outcome { s with host.pending := e :: rest } =
      outcome { stepOn { s with host.pending := [e] } with host.pending := rest } := by
  have hrun : outcome { s with host.pending := e :: rest } =
      runOn rest.length (stepOn { s with host.pending := e :: rest }) := rfl
  rw [hrun, stepOn_cons]
  rfl

/-- Settles O10, by induction on the sequence served first. -/
theorem hostSequenceIsServedInOrder : Obligations.HostSequenceIsServedInOrder := by
  intro s es fs
  induction es generalizing s with
  | nil => rw [outcome_nil, List.nil_append]
  | cons e es ih => rw [List.cons_append, outcome_cons, outcome_cons, ih]

end Sys2Proof.Machine
end

section
/-! SUPPORT. The block's state (spec/10_state.md): everything a command can do to it, which commands write which part
(R56), the three flags with rules of their own (R25, R26, R28), and the invariant (R32, R37, R38, R46, R53, R141, R213,
R215), which reset and every step keep. -/

namespace Sys2Proof.Machine

/-! ### Result codes (R32, R250) -/

@[simp] theorem ResultCode.code_eq_zero_iff (e : ResultCode) : e.code = 0#4 ↔ e = .ok := by
  cases e <;> decide

theorem ResultCode.code_toNat_lt (e : ResultCode) : e.code.toNat < 8 := by
  cases e <;> decide

/-! ### What a command can do -/

/-- A peak step neither looks at DISTV nor writes it (R212). -/
theorem pkStep_distv (x : Word) (s : State) (d : Bool) :
    pkStep x { s with distv := d } = { pkStep x s with distv := d } := by
  unfold pkStep
  dsimp only
  split <;> rfl

/-- R231, R232: a sample command fails and takes no sample, or runs one peak step; PK.DEC has then consumed the
distance. -/
theorem exec_sample_cases {i : Instr} {s t : State} (hi : i = .pkSmp ∨ i = .pkDec) (h : exec i s = .next t) :
    (∃ e, e ≠ .ok ∧ t = rejectSample e s) ∨
    (s.regs.blvalid = true ∧ ∃ x p r b, pkStep x s = { s with peak := p, result := r, pvalid := b } ∧
      t = finish .ok
        { s with peak := p, result := r, pvalid := b, distv := if i = .pkDec then false else s.distv }) := by
  obtain rfl | rfl := hi
  · simp only [exec, execPkSmp] at h
    split at h <;> obtain rfl := Host.Outcome.next.inj h
    · obtain ⟨p, r, b, hp⟩ := pkStep_frame (opndSample s) s
      exact .inr ⟨‹_›, _, p, r, b, hp, by rw [hp]; rfl⟩
    · exact .inl ⟨_, by decide, rfl⟩
  · simp only [exec, execPkDec] at h
    split at h
    · split at h <;> obtain rfl := Host.Outcome.next.inj h
      · obtain ⟨p, r, b, hp⟩ := pkStep_frame (decodedSample s) s
        exact .inr ⟨‹_›, _, p, r, b, hp, by rw [pkStep_distv, hp]; rfl⟩
      · exact .inl ⟨_, by decide, rfl⟩
    · obtain rfl := Host.Outcome.next.inj h
      exact .inl ⟨_, by decide, rfl⟩

/-- Everything a command can do to the state, the commands grouped by what they write, as R56 groups them. -/
inductive CommandEffect (s : State) : Instr → State → Prop
  /-- NOP, RX.PUSH into a full buffer, FCHK of a response too short to check -/
  | codeOnly {i} (e : ResultCode) : CommandEffect s i (finish e s)
  /-- CRC.*, FCHK and VAL -/
  | crcOnly {i} (hi : isCrcWriter i = true) (e : ResultCode) (c : Half) : CommandEffect s i (finish e { s with crc := c })
  /-- ENC, RDDIST, RDREG and WRREG -/
  | frame {i} (hi : isFramer i = true) (hc : isCrcWriter i = true) (a f : Byte) (r v : Half) :
    CommandEffect s i (finish .ok (storeFrame a f r v s))
  | rxClr : CommandEffect s .rxClr (finish .ok (clearRx s))
  | rxPush (b : Byte) (h : s.rx.len.val < 16) : CommandEffect s (.rxPush b) (finish .ok (appendRx b s h))
  | rxLoop : CommandEffect s .rxLoop (finish .ok (loopRx s))
  /-- DEC.DIST, DEC.U16 and DEC.ACK -/
  | decode {i} (hi : isDecoder i = true) (hc : isCrcWriter i = true) (e : ResultCode) (c : Half) (v : Word) (d : Bool) :
    CommandEffect s i (finish e { s with crc := c, decValue := v, distv := d })
  | pkRst : CommandEffect s .pkRst
      (finish .ok { s with peak := State.reset.peak, result := State.reset.result, pvalid := false })
  /-- a PK.SMP or PK.DEC that fails -/
  | reject {i} (hi : isPeak i = true) (e : ResultCode) : CommandEffect s i (rejectSample e s)
  /-- a PK.SMP or PK.DEC that takes the sample `x` -/
  | sample {i} (hi : isPeak i = true) (hb : s.regs.blvalid = true) (x : Word) (p : PeakState) (r : PeakResult) (b : Bool)
    (hp : pkStep x s = { s with peak := p, result := r, pvalid := b }) :
    CommandEffect s i
      (finish .ok { s with peak := p, result := r, pvalid := b, distv := if i = .pkDec then false else s.distv })

theorem CommandEffect.of_sample {i : Instr} {s t : State} (hi : i = .pkSmp ∨ i = .pkDec) (h : exec i s = .next t) :
    CommandEffect s i t := by
  have hpk : isPeak i = true := by obtain rfl | rfl := hi <;> rfl
  obtain ⟨e, -, rfl⟩ | ⟨hb, x, p, r, b, hp, rfl⟩ := exec_sample_cases hi h
  · exact .reject hpk e
  · exact .sample hpk hb x p r b hp

/-- A decode command is a validation, which may leave a CRC, and then `finishDecode`. -/
theorem CommandEffect.of_finishDecode {i : Instr} (hi : isDecoder i = true) (hc : isCrcWriter i = true) (len : Nat)
    (func : Byte) (s : State) (value : Word) (distance : Bool) :
    CommandEffect s i (finishDecode (validate len func s) value distance) := by
  obtain ⟨c, hv⟩ := validate_state len func s
  rw [finishDecode, hv]
  exact .decode hi hc _ c _ _

theorem exec_effect {i : Instr} {s t : State} (h : exec i s = .next t) : CommandEffect s i t := by
  cases i with
  | pkSmp => exact .of_sample (.inl rfl) h
  | pkDec => exact .of_sample (.inr rfl) h
  | fchk =>
    simp only [exec, execFchk] at h
    split at h <;> obtain rfl := Host.Outcome.next.inj h
    · exact .codeOnly _
    · exact .crcOnly rfl _ _
  | rxPush b =>
    simp only [exec, execRxPush] at h
    split at h <;> obtain rfl := Host.Outcome.next.inj h
    · exact .rxPush b _
    · exact .codeOnly _
  | val l f =>
    obtain rfl := Host.Outcome.next.inj h
    obtain ⟨c, hv⟩ := validate_state l.toNat f s
    rw [hv]
    exact .crcOnly rfl _ c
  | nop => obtain rfl := Host.Outcome.next.inj h; exact .codeOnly _
  | crcInit | crcByte _ | crcRx => obtain rfl := Host.Outcome.next.inj h; exact .crcOnly rfl _ _
  | enc _ | rddist | rdreg _ | wrreg => obtain rfl := Host.Outcome.next.inj h; exact .frame rfl rfl _ _ _ _
  | rxClr => obtain rfl := Host.Outcome.next.inj h; exact .rxClr
  | rxLoop => obtain rfl := Host.Outcome.next.inj h; exact .rxLoop
  | decDist | decU16 | decAck => obtain rfl := Host.Outcome.next.inj h; exact .of_finishDecode rfl rfl _ _ _ _ _
  | pkRst => obtain rfl := Host.Outcome.next.inj h; exact .pkRst

/-! ### Which commands write which state (R56) -/

section
variable {i : Instr} {s t : State}

theorem exec_regs (h : exec i s = .next t) : t.regs = s.regs := by
  cases exec_effect h <;> rfl

theorem exec_crc (h : exec i s = .next t) (hi : isCrcWriter i = false) : t.crc = s.crc := by
  cases exec_effect h with
  | crcOnly hc => cases hi.symm.trans hc
  | frame _ hc => cases hi.symm.trans hc
  | decode _ hc => cases hi.symm.trans hc
  | _ => rfl

theorem exec_tx (h : exec i s = .next t) (hi : isFramer i = false) : t.tx = s.tx := by
  cases exec_effect h with
  | frame hf => cases hi.symm.trans hf
  | _ => rfl

theorem exec_rx (h : exec i s = .next t) (hi : isRxWriter i = false) : t.rx = s.rx := by
  cases exec_effect h with
  | rxClr | rxPush | rxLoop => cases hi
  | _ => rfl

theorem exec_decValue (h : exec i s = .next t) (hi : isDecoder i = false) : t.decValue = s.decValue := by
  cases exec_effect h with
  | decode hd => cases hi.symm.trans hd
  | _ => rfl

/-- The engine, its results and the flag that says a result was emitted (R26, R56). -/
theorem exec_peak (h : exec i s = .next t) (hi : isPeak i = false) :
    t.peak = s.peak ∧ t.result = s.result ∧ t.pvalid = s.pvalid := by
  cases exec_effect h with
  | pkRst => cases hi
  | reject hp => cases hi.symm.trans hp
  | sample hp => cases hi.symm.trans hp
  | _ => exact ⟨rfl, rfl, rfl⟩

theorem exec_distv (h : exec i s = .next t) (hd : isDecoder i = false) (hi : i ≠ .pkDec) : t.distv = s.distv := by
  cases exec_effect h with
  | decode hd' => cases hd.symm.trans hd'
  | sample => exact if_neg hi
  | _ => rfl

end

/-- R90: an illegal command word leaves the host-written registers too. -/
theorem execute_regs {w : Word} {s t : State} (h : execute w s = .next t) : t.regs = s.regs := by
  unfold execute at h
  split at h
  · exact exec_regs h
  · obtain rfl := Host.Outcome.next.inj h
    rfl

/-- Settles O49: one frame lemma per column of R56, each by the cases of `CommandEffect`. -/
theorem commandsWriteOnlyTheirState : Obligations.CommandsWriteOnlyTheirState := fun _ _ _ h =>
  ⟨exec_regs h, exec_host h, exec_crc h, exec_tx h, exec_rx h, exec_decValue h, fun hi =>
    have ⟨hpeak, hresult, _⟩ := exec_peak h hi
    ⟨hpeak, hresult⟩⟩

/-! ### DISTV (R25) -/

theorem finishDecode_distv (c : Checked) (value : Word) (distance : Bool) :
    (finishDecode c value distance).distv = (distance && decide (c.code = .ok)) := rfl

theorem finishDecode_err (c : Checked) (value : Word) (distance : Bool) :
    (finishDecode c value distance).err = c.code.code := rfl

/-- R232: PK.DEC clears DISTV exactly when it takes the sample. -/
theorem exec_pkDec_distv {s t : State} (h : exec .pkDec s = .next t) :
    t.distv = if t.err = 0#4 then false else s.distv := by
  obtain ⟨e, he, rfl⟩ | ⟨-, x, p, r, b, -, rfl⟩ := exec_sample_cases (.inr rfl) h
  · exact (if_neg (by simpa [rejectSample] using he)).symm
  · rfl

/-- Settles O50. -/
theorem distvRule : Obligations.DistvRule := by
  refine ⟨fun i s t h => ⟨?_, ?_, ?_, exec_distv h⟩, fun _ => rfl⟩
  · rintro rfl
    obtain rfl := Host.Outcome.next.inj h
    simp [finishDecode_distv, finishDecode_err]
  · rintro (rfl | rfl) <;> obtain rfl := Host.Outcome.next.inj h <;> rfl
  · rintro rfl
    exact exec_pkDec_distv h

/-! ### PVALID (R26) -/

/-- R212, R214: a peak step sets PVALID exactly if it closes a peak, and then and only then PEAK_COUNT rises. -/
theorem pkStep_pvalid (x : Word) (s : State) :
    ((pkStep x s).pvalid = true ↔ s.peak.inpeak = true ∧ (pkStep x s).peak.inpeak = false) ∧
      (pkStep x s).result.count = if (pkStep x s).pvalid = true then s.result.count + 1#32 else s.result.count := by
  obtain ⟨hi, _, h⟩ | ⟨hi, _, h⟩ | ⟨hi, _, h⟩ | ⟨hi, _, h⟩ := pkStep_cases x s <;> rw [h]
  · simp [hi]
  · simp [hi]
  · simp [hi, extendPeak]
  · simp [hi, closePeak, emittedResult]

theorem exec_sample_pvalid {i : Instr} {s t : State} (hi : i = .pkSmp ∨ i = .pkDec) (h : exec i s = .next t) :
    t.result.count = (if t.pvalid = true then s.result.count + 1#32 else s.result.count) ∧
      (t.pvalid = true ↔ s.peak.inpeak = true ∧ t.peak.inpeak = false) ∧ (t.err ≠ 0#4 → t.pvalid = false) := by
  obtain ⟨e, -, rfl⟩ | ⟨-, x, p, r, b, hp, rfl⟩ := exec_sample_cases hi h
  · simp [rejectSample]
  · obtain ⟨hclosed, hcount⟩ := pkStep_pvalid x s
    rw [hp] at hclosed hcount
    exact ⟨hcount, hclosed, fun he => absurd rfl he⟩

/-- Settles O51. -/
theorem pvalidRule : Obligations.PvalidRule := by
  refine ⟨fun i s t h => ⟨fun hi => exec_sample_pvalid hi h, ?_, fun hi => ?_⟩, fun _ => rfl⟩
  · rintro rfl
    obtain rfl := Host.Outcome.next.inj h
    exact ⟨rfl, rfl⟩
  · obtain ⟨-, hresult, hpvalid⟩ := exec_peak h hi
    exact ⟨hpvalid, by rw [hresult]⟩

/-! ### BLVALID (R28) -/

theorem Reg.offset_injective {r q : Reg} (h : r.offset = q.offset) : r = q :=
  Option.some.inj (by rw [← Reg.ofOffset?_offset, h, Reg.ofOffset?_offset])

theorem regAddr_inj {s : State} {r q : Reg} (h : regAddr s r = regAddr s q) : r = q :=
  Reg.offset_injective (Nat.add_left_cancel h)

theorem writeReg_blvalid (r : Reg) (v : Word) (s : State) :
    (writeReg r v s).regs.blvalid = if r = .baseline then true else s.regs.blvalid := by
  cases r <;> rfl

/-- R28, R65: of the served accesses a write to BASELINE sets BLVALID, and the others leave it. -/
theorem serveAccess_blvalid {a : BusAccess} {s t : State} (h : serveAccess a s = .next t) :
    ((∃ v, a.kind = .write v) ∧ a.addr = regAddr s .baseline → t.regs.blvalid = true) ∧
    (¬((∃ v, a.kind = .write v) ∧ a.addr = regAddr s .baseline) → t.regs.blvalid = s.regs.blvalid) := by
  obtain ⟨r, hc, hcases⟩ := serveAccess_cases h
  obtain ⟨haddr, -⟩ := checkAccess_ok hc
  have hbase : a.addr = regAddr s .baseline ↔ r = .baseline := by
    rw [haddr]
    exact ⟨regAddr_inj, congrArg _⟩
  obtain ⟨hk, rfl⟩ | ⟨v, -, rfl, hx⟩ | ⟨v, hk, -, rfl⟩ := hcases
  · simp [hk]
  · simp [hbase, execute_regs hx]
  · simp +contextual [hk, hbase, writeReg_blvalid]

/-- R231, R232: before a baseline is written the sample commands end with NO_BASELINE. -/
theorem exec_sample_noBaseline {i : Instr} {s : State} (hb : s.regs.blvalid = false) (hi : i = .pkSmp ∨ i = .pkDec) :
    exec i s = .next (rejectSample .noBaseline s) := by
  obtain rfl | rfl := hi
  · simp [exec, execPkSmp, hb]
  · simp [exec, execPkDec, hb]

theorem resetDuringAccess_regs (a : BusAccess) (s : State) : (resetDuringAccess a s).regs = State.reset.regs := by
  unfold resetDuringAccess
  cases a.kind <;> rfl

theorem step_pending {s : State} {e : HostEvent} {rest : List HostEvent} (hp : s.host.pending = e :: rest) :
    step s = serveEvent e { s with host.pending := rest } := by
  rw [step, hp]

/-- Settles O52. -/
theorem blvalidRule : Obligations.BlvalidRule := by
  refine ⟨fun s t e rest hp h => ?_, fun s i hb hi => ⟨_, exec_sample_noBaseline hb hi, rfl⟩, fun _ => rfl⟩
  rw [step_pending hp] at h
  constructor
  · rintro a rfl
    exact serveAccess_blvalid (s := { s with host.pending := rest }) h
  · rintro (rfl | ⟨a, rfl⟩) <;> obtain rfl := Host.Outcome.next.inj h
    · rfl
    · rw [resetDuringAccess_regs]
      rfl

/-! ### The parts of the invariant. The request buffer (R37, R141) -/

theorem storeFrame_txFrameInv (a f : Byte) (r v : Half) (s : State) : TxFrameInv (storeFrame a f r v s) :=
  fun _ => ⟨rfl, rfl⟩

/-! ### The response buffer (R38) -/

theorem clearRx_rxTailZero (s : State) : RxTailZero (clearRx s) := fun k _ _ => rxByte_clearRx s k

theorem appendRx_rxTailZero {s : State} (hs : RxTailZero s) (b : Byte) (h : s.rx.len.val < 16) :
    RxTailZero (appendRx b s h) := by
  intro k hk (hle : s.rx.len.val + 1 ≤ k)
  rw [rxByte_appendRx, if_neg (by omega)]
  exact hs k hk (by omega)

theorem loopRx_rxTailZero (s : State) : RxTailZero (loopRx s) := by
  intro k hk (hle : s.tx.len.val ≤ k)
  rw [rxByte_loopRx s k hk, if_neg (by omega)]

/-! ### The peak engine and its results (R29 to R31, R46, R53, R212 to R215) -/

/-- R212: the larger of a held depth and a deviation above threshold fits in MAX_DEV. -/
theorem max_dev_toNat {x b t m : Word} (h : aboveThreshold (deviation x b) t = true) :
    ((BitVec.ofInt 32 (max (m.toNat : Int) (deviation x b))).toNat : Int) = max (m.toNat : Int) (deviation x b) := by
  have hdev := (above_toNat h).1
  rw [BitVec.toNat_ofInt]
  omega

theorem pkStep_peakInv {s : State} (hs : PeakInv s) (x : Word) : PeakInv (pkStep x s) := by
  obtain ⟨hidle, hpeak⟩ := hs
  obtain ⟨hi, ha, h⟩ | ⟨hi, ha, h⟩ | ⟨hi, ha, h⟩ | ⟨hi, ha, h⟩ := pkStep_cases x s <;> rw [h]
  · have hdev := above_toNat ha
    exact ⟨nofun, fun _ => ⟨le_rfl, by dsimp only [openPeak]; omega⟩⟩
  · exact ⟨hidle, hpeak⟩
  · have hdev := above_toNat ha
    have hmax := max_dev_toNat (m := s.peak.maxDev) ha
    refine ⟨fun hf => (nomatch hi.symm.trans hf), fun _ => ⟨?_, ?_⟩⟩
    · dsimp only [extendPeak]; rw [satIncr_toNat]; omega
    · dsimp only [extendPeak]; omega
  · exact ⟨fun _ => ⟨rfl, rfl, rfl⟩, nofun⟩

theorem pkStep_widthCountInv {s : State} (hs : WidthCountInv s) (x : Word) : WidthCountInv (pkStep x s) := by
  obtain ⟨hi, _, h⟩ | ⟨hi, _, h⟩ | ⟨hi, _, h⟩ | ⟨hi, _, h⟩ := pkStep_cases x s <;> rw [h]
  · intro _ _
    dsimp only [openPeak]
    bv_omega
  · exact fun hp => nomatch hi.symm.trans hp
  · intro _ hsat
    dsimp only [extendPeak] at hsat ⊢
    have hw := satIncr_toNat s.peak.widthCnt
    have hd := hs hi
    bv_omega
  · exact nofun

/-- R215: what the divider's flags say of its operand and its quotient. -/
theorem ratioDiv_flags (depth : Word) (width : Width48) :
    ((ratioDiv depth width).rundef = true → width = 0#48 ∧ (ratioDiv depth width).ratio = 0#32) ∧
    ((ratioDiv depth width).rsat = true →
      (ratioDiv depth width).rundef = false ∧ (ratioDiv depth width).ratio = 0xFFFFFFFF#32) := by
  obtain ⟨hw, h⟩ | ⟨-, -, h⟩ | ⟨-, -, h⟩ := ratioDiv_cases depth width <;> rw [h]
  · exact ⟨fun _ => ⟨BitVec.eq_of_toNat_eq hw, rfl⟩, nofun⟩
  · exact ⟨nofun, fun _ => ⟨rfl, rfl⟩⟩
  · exact ⟨nofun, nofun⟩

theorem emittedResult_resultInv {s t : State} (h : t.result = emittedResult s) : ResultInv t := by
  obtain ⟨hundef, hsat⟩ := ratioDiv_flags s.peak.maxDev (peakWidth s)
  unfold ResultInv
  rw [h]
  exact ⟨hundef, hsat, beq_iff_eq⟩

theorem pkStep_resultInv {s : State} (hs : ResultInv s) (x : Word) : ResultInv (pkStep x s) := by
  obtain ⟨_, _, h⟩ | ⟨_, _, h⟩ | ⟨_, _, h⟩ | ⟨_, _, h⟩ := pkStep_cases x s <;> rw [h]
  · exact hs
  · exact hs
  · exact hs
  · exact emittedResult_resultInv rfl

/-! ### The invariant after reset -/

/-- The request buffer of reset: no frame, every byte 0 (R37). -/
theorem txByte_reset (k : Nat) : txByte State.reset k = 0x00#8 := by
  simp only [txByte, State.reset, Vector.toList_replicate, List.getD_eq_getElem?_getD, List.getElem?_replicate]
  split <;> simp

theorem inv_reset : Inv State.reset where
  err := ResultCode.code_toNat_lt .ok
  txLen := .inl ⟨rfl, fun k _ => txByte_reset k⟩
  txFrame := nofun
  rxTail := clearRx_rxTailZero State.reset
  peak := ⟨fun _ => ⟨rfl, rfl, rfl⟩, nofun⟩
  widthCount := nofun
  baseline := fun _ => ⟨rfl, rfl, rfl, rfl, rfl⟩
  result := ⟨nofun, nofun, by decide⟩

/-- Settles O53. -/
theorem invariantAtReset : Obligations.InvariantAtReset := inv_reset

/-! ### Every step keeps the invariant. A part an operation does not touch is the old state's (`{ hs with … }`). -/

/-- The invariant leaves CRC, DEC_VALUE, DISTV and the host's side free. -/
theorem Inv.withUnconstrained {s : State} (hs : Inv s) (c : Half) (v : Word) (d : Bool) (h : HostSide) :
    Inv { s with crc := c, decValue := v, distv := d, host := h } :=
  { hs with }

theorem Inv.finish {s : State} (hs : Inv s) (e : ResultCode) : Inv (finish e s) :=
  { hs with err := e.code_toNat_lt }

theorem storeFrame_inv {s : State} (hs : Inv s) (a f : Byte) (r v : Half) : Inv (storeFrame a f r v s) :=
  { hs with txLen := .inr rfl, txFrame := storeFrame_txFrameInv a f r v s }

theorem clearRx_inv {s : State} (hs : Inv s) : Inv (clearRx s) :=
  { hs with rxTail := clearRx_rxTailZero s }

theorem appendRx_inv {s : State} (hs : Inv s) (b : Byte) (h : s.rx.len.val < 16) : Inv (appendRx b s h) :=
  { hs with rxTail := appendRx_rxTailZero hs.rxTail b h }

theorem loopRx_inv {s : State} (hs : Inv s) : Inv (loopRx s) :=
  { hs with rxTail := loopRx_rxTailZero s }

theorem rejectSample_inv {s : State} (hs : Inv s) (e : ResultCode) : Inv (rejectSample e s) :=
  { hs with
    err := e.code_toNat_lt
    baseline := fun hb =>
      have ⟨hbase, hidle, _, hindex, hcount⟩ := hs.baseline hb
      ⟨hbase, hidle, rfl, hindex, hcount⟩ }

/-- R230: PK.RST puts the engine and the results where reset puts them. -/
theorem clearedPeak_inv {s : State} (hs : Inv s) :
    Inv { s with peak := State.reset.peak, result := State.reset.result, pvalid := false } :=
  { hs with
    peak := inv_reset.peak
    widthCount := inv_reset.widthCount
    result := inv_reset.result
    baseline := fun hb => ⟨(hs.baseline hb).1, rfl, rfl, rfl, rfl⟩ }

/-- R212: a peak step is taken only once a BASELINE is written, so it owes nothing to `BaselineInv`. -/
theorem pkStep_inv {s : State} (hs : Inv s) (hb : s.regs.blvalid = true) (x : Word) : Inv (pkStep x s) := by
  have hpeak := pkStep_peakInv hs.peak x
  have hwidth := pkStep_widthCountInv hs.widthCount x
  have hresult := pkStep_resultInv hs.result x
  obtain ⟨p, r, b, hp⟩ := pkStep_frame x s
  rw [hp] at hpeak hwidth hresult ⊢
  exact { hs with
    peak := hpeak
    widthCount := hwidth
    result := hresult
    baseline := fun hf => nomatch hb.symm.trans hf }

theorem exec_inv {i : Instr} {s t : State} (hs : Inv s) (h : exec i s = .next t) : Inv t := by
  cases exec_effect h with
  | codeOnly e => exact hs.finish e
  | crcOnly _ e c => exact (hs.withUnconstrained c _ _ _).finish e
  | frame _ _ a f r v => exact (storeFrame_inv hs a f r v).finish .ok
  | rxClr => exact (clearRx_inv hs).finish .ok
  | rxPush b hlen => exact (appendRx_inv hs b hlen).finish .ok
  | rxLoop => exact (loopRx_inv hs).finish .ok
  | decode _ _ e c v d => exact (hs.withUnconstrained c v d _).finish e
  | pkRst => exact (clearedPeak_inv hs).finish .ok
  | reject _ e => exact rejectSample_inv hs e
  | sample _ hb x p r b hp =>
    have hstep := pkStep_inv hs hb x
    rw [hp] at hstep
    exact (hstep.withUnconstrained _ _ _ _).finish .ok

/-- R254: an illegal word is only a result code. -/
theorem execute_inv {w : Word} {s t : State} (hs : Inv s) (h : execute w s = .next t) : Inv t := by
  unfold execute at h
  split at h
  · exact exec_inv hs h
  · obtain rfl := Host.Outcome.next.inj h
    exact hs.finish .illegal

theorem writeReg_inv {s : State} (hs : Inv s) (r : Reg) (v : Word) : Inv (writeReg r v s) := by
  cases r with
  | baseline => exact { hs with baseline := nofun }
  | _ => exact { hs with }

theorem serveAccess_inv {a : BusAccess} {s t : State} (hs : Inv s) (h : serveAccess a s = .next t) : Inv t := by
  obtain ⟨r, -, ⟨-, rfl⟩ | ⟨v, -, -, hx⟩ | ⟨v, -, -, rfl⟩⟩ := serveAccess_cases h
  · exact hs.withUnconstrained _ _ _ _
  · exact execute_inv hs hx
  · exact writeReg_inv hs r v

theorem resetBlock_inv (s : State) : Inv (resetBlock s) := inv_reset.withUnconstrained _ _ _ _

theorem resetDuringAccess_inv (a : BusAccess) (s : State) : Inv (resetDuringAccess a s) := by
  unfold resetDuringAccess
  cases a.kind with
  | read => exact (resetBlock_inv s).withUnconstrained _ _ _ _
  | write v => exact resetBlock_inv s

/-- Settles O54: by the cases of a step, and of what a served access can be. -/
theorem stepKeepsInvariant : Obligations.StepKeepsInvariant := by
  intro s t hs h
  obtain ⟨-, rfl⟩ | ⟨a, rest, -, ha⟩ | ⟨rest, -, rfl⟩ | ⟨a, rest, -, rfl⟩ := step_cases h
  · exact hs
  · exact serveAccess_inv (hs.withUnconstrained _ _ _ _) ha
  · exact resetBlock_inv _
  · exact resetDuringAccess_inv a _

end Sys2Proof.Machine
end

section
/-! SUPPORT. The register window (spec/20_memory.md): which accesses are served and which refused (R61, R62, R64), what a
read returns (R63) and a write does (R65), what no access but a command changes (R67), the transactions of R81 and R82,
and the calibrator's rounding (R84). With it, for the words written to CMD, that the decoder undoes the encoder. -/

namespace Sys2Proof

/-! ### The decoder undoes the encoder (R90 to R98) -/

/-- R92 to R95: an encoded word has its reserved bits 0. -/
theorem reservedClear_lowBits (i : Instr) : i.opcode.format.reservedClear i.lowBits = true := by
  cases i with
  | crcByte b | rxPush b | enc b | rdreg b => exact beq_iff_eq.2 BitVec.extractLsb'_append_eq_left
  | val l f =>
    have hl := l.isLt
    have hf := f.isLt
    refine beq_iff_eq.2 (BitVec.eq_of_toNat_eq ?_)
    rw [BitVec.extractLsb'_toNat, lowBits_val_toNat, Nat.shiftRight_eq_div_pow, BitVec.toNat_ofNat]
    omega
  | _ => rfl

/-- R93 to R95: the operand fields of an encoded word are the instruction's operands. -/
theorem build_lowBits (i : Instr) : i.opcode.build i.lowBits = i := by
  cases i with
  | crcByte b => exact congrArg Instr.crcByte BitVec.extractLsb'_append_eq_right
  | rxPush b => exact congrArg Instr.rxPush BitVec.extractLsb'_append_eq_right
  | enc b => exact congrArg Instr.enc BitVec.extractLsb'_append_eq_right
  | rdreg r => exact congrArg Instr.rdreg BitVec.extractLsb'_append_eq_right
  | val l f =>
    refine congrArg₂ Instr.val (BitVec.eq_of_toNat_eq ?_) BitVec.extractLsb'_append_eq_right
    have hl := l.isLt
    have hf := f.isLt
    rw [BitVec.extractLsb'_toNat, lowBits_val_toNat, Nat.shiftRight_eq_div_pow]
    omega
  | _ => rfl

/-- R90 to R95: the decoder reads back what the encoder wrote. -/
theorem decode_encode (i : Instr) : decode (encode i) = .ok i := by
  rw [decode_ok_iff, opField_encode, lowField_encode]
  exact ⟨i.opcode, Opcode.ofByte?_byte _, reservedClear_lowBits i, build_lowBits i⟩

end Sys2Proof

namespace Sys2Proof.Machine

/-! ### Which accesses are served (R61, R62, R64) -/

/-- The block gives every command word a meaning (R251, R254). -/
theorem execute_next (w : Word) (s : State) : ∃ t, execute w s = .next t :=
  have ⟨t, h, _⟩ := execute_pending w s []
  ⟨t, h⟩

/-- An access that reaches a register is served, whatever its kind and datum. -/
theorem serveAt_next (r : Reg) (k : AccessKind) (s : State) : ∃ t, serveAt r k s = .next t := by
  cases k with
  | read => exact ⟨_, rfl⟩
  | write v =>
    by_cases hr : r = .cmd
    · simpa [serveAt, hr] using execute_next v s
    · exact ⟨_, if_neg hr⟩

theorem checkAccess_outside {s : State} {a : BusAccess} (h : inWindow s a = false) :
    checkAccess s a = .error (.outsideWindow a.addr) := by
  simp [checkAccess, h]

/-- Inside the window an access reaches a register if it has the legal shape and its offset is assigned, and is refused
if not. -/
theorem checkAccess_inside {s : State} {a : BusAccess} (h : inWindow s a = true) :
    (legalShape s a = true ∧ ∃ r, Reg.ofOffset? (a.addr - baseAddr s) = some r ∧ checkAccess s a = .ok r) ∨
    ((legalShape s a = false ∨ Reg.ofOffset? (a.addr - baseAddr s) = none) ∧
      checkAccess s a = .error (.busError a.addr)) := by
  cases hs : legalShape s a with
  | false => exact .inr ⟨.inl rfl, by simp [checkAccess, h, hs]⟩
  | true =>
    cases ho : Reg.ofOffset? (a.addr - baseAddr s) with
    | none => exact .inr ⟨.inr rfl, by simp [checkAccess, h, hs, ho]⟩
    | some r => exact .inl ⟨rfl, r, rfl, by simp [checkAccess, h, hs, ho]⟩

/-- The next event is an access: `checkAccess` decides the step's outcome. -/
theorem step_access_ok {s : State} {a : BusAccess} {r : Reg} (h : checkAccess s a = .ok r) (rest : List HostEvent) :
    step { s with host.pending := .access a :: rest } = serveAt r a.kind { s with host.pending := rest } := by
  have hc : checkAccess { s with host.pending := rest } a = .ok r := h
  rw [step_event, serveEvent, serveAccess, hc]

theorem step_access_error {s : State} {a : BusAccess} {f : Fault} (h : checkAccess s a = .error f)
    (rest : List HostEvent) : step { s with host.pending := .access a :: rest } = .fault f := by
  have hc : checkAccess { s with host.pending := rest } a = .error f := h
  rw [step_event, serveEvent, serveAccess, hc]

/-- Settles O14: `checkAccess` turns the access away by its address alone. -/
theorem outsideWindowIsNotServed : Obligations.OutsideWindowIsNotServed := by
  intro s a rest h
  have hout : inWindow s a = false := by
    rw [← Bool.not_eq_true, inWindow_iff]
    omega
  have hstep := step_access_error (checkAccess_outside hout) rest
  exact ⟨hstep, by rw [stepOn, hstep]; rfl⟩

/-- Settles O13: R62 is `legalShape`, and R64's unassigned offsets are those `Reg.ofOffset?` knows no register at. -/
theorem malformedAccessIsBusError : Obligations.MalformedAccessIsBusError := by
  intro s a rest hlo hhi
  have hunassigned := Reg.ofOffset?_none_iff (off := a.addr - baseAddr s) (by omega)
  obtain ⟨hs, r, hr, hok⟩ | ⟨hbad, herr⟩ := checkAccess_inside ((inWindow_iff s a).2 ⟨hlo, hhi⟩)
  · obtain ⟨hsize, halign⟩ := (legalShape_iff s a).1 hs
    have hassigned := (hunassigned halign).not.1 (by simp [hr])
    refine ⟨fun hbad => by omega, fun _ => ?_⟩
    rw [step_access_ok hok]
    exact serveAt_next r a.kind _
  · refine ⟨fun _ => ?_, fun ⟨hsize, halign, hoff⟩ => ?_⟩
    · have hstep := step_access_error herr rest
      exact ⟨hstep, by rw [stepOn, hstep]; rfl⟩
    · have hs := (legalShape_iff s a).2 ⟨hsize, halign⟩
      have hnone := (hunassigned halign).1 (hbad.resolve_left (by simp [hs]))
      omega

/-! ### What a read returns (R63, R68) -/

theorem append_toNat {m n : Nat} (x : BitVec m) (y : BitVec n) : (x ++ y).toNat = 2 ^ n * x.toNat + y.toNat := by
  rw [BitVec.toNat_append, ← Nat.shiftLeft_add_eq_or_of_lt y.isLt, Nat.shiftLeft_eq, Nat.mul_comm]

/-- R24: the fields of STATUS at their bit positions. -/
theorem statusWord_toNat (s : State) :
    (statusWord s).toNat =
      s.err.toNat + 2 ^ 4 * s.distv.toNat + 2 ^ 5 * s.pvalid.toNat + 2 ^ 6 * s.peak.inpeak.toNat +
        2 ^ 7 * s.regs.blvalid.toNat + 2 ^ 8 * s.result.rundef.toNat + 2 ^ 9 * s.result.rsat.toNat +
        2 ^ 10 * s.result.wsat.toNat := by
  simp only [statusWord, append_toNat, BitVec.toNat_ofBool, BitVec.toNat_ofNat]
  omega

/-- R33: the fields of CTRL at their bit positions. -/
theorem ctrlWord_toNat (s : State) : (ctrlWord s).toNat = s.regs.rxcrc.toNat + 2 * s.regs.wmode.toNat := by
  simp only [ctrlWord, append_toNat, BitVec.toNat_ofBool, BitVec.toNat_ofNat]
  omega

/-- R49: the two words of RES_WIDTH. -/
theorem resWidthLo_toNat (s : State) : (readReg .resWidthLo s).toNat = s.result.width.toNat % 2 ^ 32 := by
  simp only [readReg, BitVec.extractLsb'_toNat, Nat.shiftRight_zero]

theorem resWidthHi_toNat (s : State) : (readReg .resWidthHi s).toNat = s.result.width.toNat / 2 ^ 32 := by
  have := s.result.width.isLt
  simp only [readReg, BitVec.toNat_setWidth, BitVec.extractLsb'_toNat, Nat.shiftRight_eq_div_pow]
  omega

/-- R63: a read of a register answers its value and is otherwise no change of state. -/
theorem step_load (s : State) (rest : List HostEvent) (r : Reg) :
    step { s with host.pending := .access (loadOf s r) :: rest } =
      .next { s with host.pending := rest, host.responses := s.host.responses ++ [.data (readReg r s)] } := by
  refine (serveAccess_load s { s with host.pending := rest } r rfl).trans ?_
  cases r <;> rfl

/-- Settles O11: the value is `readReg`'s, register by register. -/
theorem readReturnsRegister : Obligations.ReadReturnsRegister := by
  intro s rest r
  refine ⟨readReg r s, step_load s rest r, ?_⟩
  have hrx := s.rx.len.isLt
  have htx := s.tx.len.isLt
  cases r with
  | status => exact statusWord_toNat s
  | ctrl => exact ctrlWord_toNat s
  | devaddr | crc | spacing => exact BitVec.toNat_setWidth_of_le (by decide)
  | rxlen | txlen => exact (BitVec.toNat_ofNat _ _).trans (Nat.mod_eq_of_lt (by omega))
  | txw0 | txw1 | rxw0 | rxw1 | rxw2 | rxw3 => exact packWord_toNat _ _ _ _
  | resWidthLo => exact resWidthLo_toNat s
  | resWidthHi => exact resWidthHi_toNat s
  | _ => rfl

/-! ### What a write does (R65, R67) -/

theorem writeReg_readOnly {r : Reg} (h : r.access = .readOnly) (v : Word) (s : State) : writeReg r v s = s := by
  cases r with
  | cmd | ctrl | devaddr | opnd | baseline | threshold | spacing | fixwidth => cases h
  | _ => rfl

/-- R65, R66: a register write reaches the host-written registers and nothing else. -/
theorem writeReg_frame (r : Reg) (v : Word) (s : State) : ∃ g, writeReg r v s = { s with regs := g } := by
  cases r <;> exact ⟨_, rfl⟩

theorem step_store (s : State) (rest : List HostEvent) (r : Reg) (v : Word) :
    step { s with host.pending := .access (storeOf s r v) :: rest } =
      if r = .cmd then execute v { s with host.pending := rest }
      else .next (writeReg r v { s with host.pending := rest }) :=
  serveAccess_store s { s with host.pending := rest } r v rfl

/-- Settles O12: a write to CMD is `execute`, to any other register `writeReg`. -/
theorem writeEffects : Obligations.WriteEffects := by
  intro s rest v
  simp only [step_store]
  refine ⟨rfl, rfl, rfl, rfl, rfl, rfl, rfl, rfl, fun r hr => ?_⟩
  have hcmd : r ≠ .cmd := by
    rintro rfl
    cases hr
  rw [if_neg hcmd, writeReg_readOnly hr]

/-- Settles O15: by the cases of a served access, of which only a write to CMD runs a command. -/
theorem onlyCommandsChangeTheEngines : Obligations.OnlyCommandsChangeTheEngines := by
  intro s t a rest hno h
  obtain ⟨r, hc, ⟨-, rfl⟩ | ⟨v, hk, rfl, -⟩ | ⟨v, -, -, rfl⟩⟩ := serveAccess_cases h
  · exact ⟨rfl, rfl, rfl, rfl, rfl, rfl, rfl, rfl, rfl⟩
  · have haddr := (checkAccess_ok hc).1
    obtain hread | hother := hno
    · cases hk.symm.trans hread
    · exact absurd haddr hother
  · obtain ⟨g, hg⟩ := writeReg_frame r v { s with host.pending := rest }
    rw [hg]
    exact ⟨rfl, rfl, rfl, rfl, rfl, rfl, rfl, rfl, rfl⟩

/-! ### Sending a request (R81, steps 1 and 2) -/

theorem execute_encode (i : Instr) (s : State) : execute (encode i) s = exec i s := by
  rw [execute, decode_encode]

/-- A served access at the head of the sequence: the outcome is that of the rest. -/
theorem outcome_access {a : BusAccess} {s t : State} (h : serveAccess a s = .next t) (rest : List HostEvent) :
    outcome { s with host.pending := .access a :: rest } = outcome { t with host.pending := rest } := by
  obtain ⟨u, hu, hnil⟩ | ⟨f, hf, -⟩ := serveEvent_pending (.access a) s []
  · obtain rfl := Host.Outcome.next.inj (hu.symm.trans h)
    rw [outcome_cons, stepOn, step_event, hnil]
  · cases hf.symm.trans h

theorem outcome_load {s₀ s : State} (hb : s.host.baseSlot = s₀.host.baseSlot) (r : Reg) (rest : List HostEvent) :
    outcome { s with host.pending := .access (loadOf s₀ r) :: rest } =
      outcome { respond (.data (readReg r s)) s with host.pending := rest } :=
  outcome_access (serveAccess_load s₀ s r hb) rest

theorem outcome_cmd {s₀ s t : State} {i : Instr} (hb : s.host.baseSlot = s₀.host.baseSlot) (h : exec i s = .next t)
    (rest : List HostEvent) :
    outcome { s with host.pending := .access (cmdOf s₀ i) :: rest } = outcome { t with host.pending := rest } :=
  outcome_access (by rw [cmdOf, serveAccess_store _ _ _ _ hb, if_pos rfl, execute_encode, h]) rest

theorem outcome_store {s₀ s : State} {r : Reg} (hb : s.host.baseSlot = s₀.host.baseSlot) (hr : r ≠ .cmd) (v : Word)
    (rest : List HostEvent) :
    outcome { s with host.pending := .access (storeOf s₀ r v) :: rest } =
      outcome { writeReg r v s with host.pending := rest } :=
  outcome_access (by rw [serveAccess_store _ _ _ _ hb, if_neg hr]) rest

/-- R147, R148: the sensor register `r` and the count or value `v` of an operation's request. -/
def RequestFields (op : ClientOp) (r v : Half) : Prop :=
  (op = .readDistance ∧ r = 0x0000#16 ∧ v = 0x0002#16) ∨
    ((op, r) ∈ [(ClientOp.readMode, 0x0001#16), (.readLightIntensity, 0x0002#16), (.readThreshold, 0x0003#16),
        (.readAnalogMode, 0x0004#16), (.readLaserStatus, 0x0005#16)] ∧ v = 0x0001#16) ∨
    op = .writeRegister r v

/-- R148: a read of one register is RDREG of its address, function 0x04. -/
theorem requestOf_readRegister {op : ClientOp} {r : Half}
    (h : (op, r) ∈ [(ClientOp.readMode, 0x0001#16), (.readLightIntensity, 0x0002#16), (.readThreshold, 0x0003#16),
      (.readAnalogMode, 0x0004#16), (.readLaserStatus, 0x0005#16)]) :
    requestOf op = .readreg r ∧ responseFunction op = 0x04#8 := by
  simp only [List.mem_cons, Prod.mk.injEq, List.not_mem_nil, or_false] at h
  obtain ⟨rfl, rfl⟩ | ⟨rfl, rfl⟩ | ⟨rfl, rfl⟩ | ⟨rfl, rfl⟩ | ⟨rfl, rfl⟩ := h <;> exact ⟨rfl, rfl⟩

/-- R104, R143 to R146: the accesses of an operation's pseudo-instruction leave its frame in the request buffer. `u` is
the state with OPND written, where the operation writes it. -/
theorem outcome_request {op : ClientOp} {r v : Half} (h : RequestFields op r v) (s : State) (rest : List HostEvent) :
    ∃ u, u.host = s.host ∧
      outcome { s with host.pending := (expand s (requestOf op)).map .access ++ rest } =
        outcome { finish .ok (storeFrame s.regs.devaddr (responseFunction op) r v u) with host.pending := rest } := by
  obtain ⟨rfl, rfl, rfl⟩ | ⟨hread, rfl⟩ | rfl := h
  · exact ⟨s, rfl, outcome_cmd rfl rfl rest⟩
  · obtain ⟨hreq, hfun⟩ := requestOf_readRegister hread
    rw [hreq, hfun]
    exact ⟨s, rfl, outcome_cmd rfl rfl rest⟩
  · refine ⟨writeReg .opnd (r ++ v) s, rfl, (outcome_store rfl (by decide) _ _).trans ?_⟩
    have hr : opndReg (writeReg .opnd (r ++ v) s) = r := BitVec.extractLsb'_append_eq_left
    have hv : opndVal (writeReg .opnd (r ++ v) s) = v := BitVec.extractLsb'_append_eq_right
    refine outcome_cmd rfl ?_ rest
    rw [exec, execWrreg, hr, hv]
    rfl

/-- R81, step 2: the host reads the request's length and its two words. -/
theorem outcome_readRequest {s₀ s : State} (hb : s.host.baseSlot = s₀.host.baseSlot) :
    outcome { s with host.pending := [loadOf s₀ .txlen, loadOf s₀ .txw0, loadOf s₀ .txw1].map .access } =
      { s with
        host.pending := []
        host.responses := s.host.responses ++
          [.data (readReg .txlen s), .data (readReg .txw0 s), .data (readReg .txw1 s)] } := by
  simp only [List.map_cons, List.map_nil]
  rw [outcome_load hb, outcome_load (by exact hb), outcome_load (by exact hb), outcome_nil]
  simp only [respond, List.append_assoc, List.cons_append, List.nil_append]
  rfl

/-- Settles O27: the request's accesses build its frame (`outcome_request`), the three reads return it. -/
theorem requestTransactionSendsFrame : Obligations.RequestTransactionSendsFrame := by
  intro s op r v h
  obtain ⟨u, hhost, hsend⟩ := outcome_request h s ([loadOf s .txlen, loadOf s .txw0, loadOf s .txw1].map .access)
  have hbase :
      (finish .ok (storeFrame s.regs.devaddr (responseFunction op) r v u)).host.baseSlot = s.host.baseSlot := by
    simp [hhost]
  rw [sendAccesses, List.map_append, hsend, outcome_readRequest hbase]
  refine ⟨_, rfl, rfl, rfl, rfl, storeFrame_txFrameInv _ _ _ _ u, ?_⟩
  simp only [finish_host, storeFrame_host, hhost]
  rfl

/-! ### Receiving a response (R81, steps 4 and 5; R82) -/

theorem execAll_append {s t : State} {is : List Instr} (h : execAll is s = .next t) (js : List Instr) :
    execAll (is ++ js) s = execAll js t := by
  induction is generalizing s with
  | nil => rw [Host.Outcome.next.inj h, List.nil_append]
  | cons i is ih =>
    simp only [execAll, List.cons_append] at h ⊢
    cases hi : exec i s with
    | next u => rw [hi] at h; exact ih h
    | fault f => rw [hi] at h; cases h
    | refused f => rw [hi] at h; cases h

/-- R162: one RX.PUSH writes the response buffer and ERR, and keeps the first 16 bytes. -/
theorem exec_rxPush (b : Byte) (s : State) :
    ∃ x e, exec (.rxPush b) s = .next { s with rx := x, err := e } ∧
      rxBytes { s with rx := x, err := e } = (rxBytes s ++ [b]).take 16 := by
  by_cases h : s.rx.len.val < 16
  · refine ⟨(appendRx b s h).rx, 0#4, by rw [exec, execRxPush, dif_pos h]; rfl, ?_⟩
    rw [List.take_of_length_le (by simp; omega)]
    exact rxBytes_appendRx b s h
  · have hfull : (rxBytes s).length = 16 := by have := s.rx.len.isLt; simp; omega
    refine ⟨s.rx, 4#4, by rw [exec, execRxPush, dif_neg h]; rfl, ?_⟩
    rw [List.take_left' hfull]
    rfl

theorem take_take_append {α : Type} (n : Nat) (l m : List α) : (l.take n ++ m).take n = (l ++ m).take n := by
  have hlen : n - min n l.length = n - l.length := by omega
  rw [List.take_append, List.take_append, List.take_take, List.length_take, Nat.min_self, hlen]

/-- R104: pushes append to the response up to its 16 bytes, by induction on the bytes. -/
theorem execAll_rxPush (bytes : List Byte) (s : State) :
    ∃ x e, execAll (bytes.map .rxPush) s = .next { s with rx := x, err := e } ∧
      rxBytes { s with rx := x, err := e } = (rxBytes s ++ bytes).take 16 := by
  induction bytes generalizing s with
  | nil =>
    refine ⟨s.rx, s.err, rfl, ?_⟩
    have := s.rx.len.isLt
    rw [List.append_nil, List.take_of_length_le (by simp; omega)]
  | cons b bytes ih =>
    obtain ⟨x, e, hpush, hb⟩ := exec_rxPush b s
    obtain ⟨y, f, hrest, hbytes⟩ := ih { s with rx := x, err := e }
    refine ⟨y, f, by rw [List.map_cons, execAll, hpush]; exact hrest, hbytes.trans ?_⟩
    rw [hb, take_take_append, List.append_assoc, List.singleton_append]

/-- R104 `RXLOAD`: after RX.CLR the response buffer holds the first 16 bytes pushed. -/
theorem execAll_rxLoad (bytes : List Byte) (s : State) :
    ∃ x e, execAll (.rxClr :: bytes.map .rxPush) s = .next { s with rx := x, err := e } ∧
      rxBytes { s with rx := x, err := e } = bytes.take 16 :=
  execAll_rxPush bytes (finish .ok (clearRx s))

theorem rxByte_eq_rxBytes_getD {s : State} {k : Nat} (h : k < s.rx.len.val) :
    rxByte s k = (rxBytes s).getD k 0x00#8 := by
  simp [rxByte, rxBytes, List.getD_eq_getElem?_getD, h]

/-- Settles O40: `execAll_rxLoad`, then the three ways a validation without CRC ends. -/
theorem receivedDistanceDecodes : Obligations.ReceivedDistanceDecodes := by
  intro s bytes hcrc
  obtain ⟨x, e, hload, hbytes⟩ := execAll_rxLoad bytes s
  set u : State := { s with rx := x, err := e }
  have hlen : u.rx.len.val = min 16 bytes.length := by rw [← rxBytes_length, hbytes, List.length_take]
  have hbyte : bytes.length = 9 → ∀ k, k < 9 → rxByte u k = bytes.getD k 0x00#8 := by
    intro h9 k hk
    rw [rxByte_eq_rxBytes_getD (by omega), hbytes, List.take_of_length_le (by omega)]
  refine ⟨finishDecode (validate 9 0x04#8 u) (decodeDist u) true, (execAll_append hload _).trans rfl, ?_⟩
  obtain ⟨hl, h⟩ | ⟨hl, hf, h⟩ | ⟨-, -, -, hr, -⟩ | ⟨hl, -, hf, -, h⟩ := validate_cases 9 0x04#8 u
  · rw [h]
    exact ⟨fun _ => ⟨rfl, rfl, rfl⟩, fun h9 => by omega, fun h9 => by omega⟩
  · have h9 : bytes.length = 9 := by omega
    have hf' := hf.resolve_left (by decide)
    rw [hbyte h9 1 (by decide)] at hf'
    rw [h]
    exact ⟨fun hn => absurd h9 hn, fun _ _ => ⟨rfl, rfl, rfl⟩, fun _ h4 => absurd h4 hf'⟩
  · cases hcrc.symm.trans hr
  · have h9 : bytes.length = 9 := by omega
    rw [hbyte h9 1 (by decide)] at hf
    rw [h]
    refine ⟨fun hn => absurd h9 hn, fun _ hn => absurd hf hn, fun _ _ => ⟨rfl, rfl, ?_⟩⟩
    refine (decodeDist_toNat u).trans ?_
    rw [hbyte h9 3 (by decide), hbyte h9 4 (by decide), hbyte h9 5 (by decide), hbyte h9 6 (by decide)]
    omega

/-! ### The calibrated baseline (R84) -/

theorem sum_toNat_le (samples : List Word) : (samples.map BitVec.toNat).sum ≤ samples.length * (2 ^ 32 - 1) := by
  have h := List.sum_le_card_nsmul (samples.map BitVec.toNat) (2 ^ 32 - 1) (by
    intro n hn
    obtain ⟨w, -, rfl⟩ := List.mem_map.1 hn
    have := w.isLt
    omega)
  simpa using h

/-- Settles O55: with divisor `2n` the rounded mean is the quotient of `2S + n`, and it fits because every sample does. -/
theorem calibratedBaselineIsRoundedMean : Obligations.CalibratedBaselineIsRoundedMean := by
  refine ⟨rfl, fun samples hne => ?_⟩
  have hn := List.length_pos_iff.2 hne
  have hsum := sum_toNat_le samples
  have hfits : (2 * (samples.map BitVec.toNat).sum + samples.length) / (2 * samples.length) < 2 ^ 32 := by
    rw [Nat.div_lt_iff_lt_mul (by omega)]
    omega
  refine ⟨_, if_neg hn.ne', ?_⟩
  rw [BitVec.toNat_ofNat, Nat.mod_eq_of_lt hfits]
  exact ⟨Nat.mul_div_le _ _, Nat.lt_mul_div_succ _ (by omega)⟩

end Sys2Proof.Machine
end

section
/-! SUPPORT. The command encoding (spec/30_encoding.md): that decoding and encoding undo each other (R91 to R95), which
words a row of the opcode map selects (R98) and which are illegal (R99), the assembler (R102), the step that runs a
decoded command (R90, R103), and what the pseudo-instruction RXLOAD leaves (R104). -/

namespace Sys2Proof

/-! ### Every instruction is well-formed (R97, R142), and its word decodes to it -/

theorem instr_wf (i : Instr) : i.wf = true := by
  cases i with
  | crcByte b | rxPush b | enc b => exact Laws.EncodedWord.byte_wf b
  | rdreg r => exact (Laws.EncodedWord.rdreg r).1
  | val l f => exact (Laws.EncodedWord.val l f).1
  | _ => rfl

/-- Settles O2: `instr_wf`, and the decoder undoes the encoder. -/
theorem decodeEncodeRoundTrip : Obligations.DecodeEncodeRoundTrip := fun i => ⟨instr_wf i, decode_encode i⟩

/-! ### The decoder by the fields of the word (R91 to R95) -/

theorem Opcode.ofByte?_eq_some_iff {b : Byte} {o : Opcode} : Opcode.ofByte? b = some o ↔ b = o.byte :=
  ⟨fun h => (Opcode.byte_of_ofByte? h).symm, fun h => h ▸ Opcode.ofByte?_byte o⟩

/-- R92 to R95: the reserved bits are those above the format's operands. -/
theorem reservedClear_iff (f : Format) (low : BitVec 24) :
    f.reservedClear low = true ↔ low.toNat / 2 ^ f.operandBits.sum = 0 := by
  have := low.isLt
  cases f <;>
    simp only [Format.reservedClear, Format.operandBits, List.sum_cons, List.sum_nil, beq_iff_eq, ← BitVec.toNat_inj,
      BitVec.extractLsb'_toNat, BitVec.toNat_ofNat, Nat.shiftRight_eq_div_pow] <;>
    omega

/-- R90: a word decodes if its opcode is listed and no bit lies above the operands. -/
theorem decode_ok_iff_fields (w : Word) (i : Instr) :
    decode w = .ok i ↔
      ∃ o : Opcode, opField w = o.byte ∧ (lowField w).toNat / 2 ^ o.format.operandBits.sum = 0 ∧
        o.build (lowField w) = i := by
  simp only [decode_ok_iff, Opcode.ofByte?_eq_some_iff, reservedClear_iff]

/-- What is no instruction's word is an error. -/
theorem decode_error_of_ne_ok {w : Word} (h : ∀ i, decode w ≠ .ok i) : ∃ e, decode w = .error e := by
  cases hd : decode w with
  | ok i => exact absurd hd (h i)
  | error e => exact ⟨e, rfl⟩

/-- R92 to R95: with its reserved bits 0 the low field is carried whole by the operands. -/
theorem lowBits_build {o : Opcode} {low : BitVec 24} (h : low.toNat / 2 ^ o.format.operandBits.sum = 0) :
    (o.build low).lowBits = low := by
  apply BitVec.eq_of_toNat_eq
  cases o with
  | crcByte | rxPush | enc =>
    replace h : low.toNat / 2 ^ 8 = 0 := h
    simp only [Opcode.build, lowBits_crcByte_toNat, lowBits_rxPush_toNat, lowBits_enc_toNat, BitVec.extractLsb'_toNat,
      Nat.shiftRight_zero]
    omega
  | rdreg =>
    replace h : low.toNat / 2 ^ 16 = 0 := h
    simp only [Opcode.build, lowBits_rdreg_toNat, BitVec.extractLsb'_toNat, Nat.shiftRight_zero]
    omega
  | val =>
    replace h : low.toNat / 2 ^ 16 = 0 := h
    simp only [Opcode.build, lowBits_val_toNat, BitVec.extractLsb'_toNat, Nat.shiftRight_eq_div_pow]
    omega
  | _ => exact ((Nat.div_one _).symm.trans h).symm

/-- Settles O3: the opcode byte and the low field of the encoding are the word's. -/
theorem encodeDecodeRoundTrip : Obligations.EncodeDecodeRoundTrip := by
  intro w i h
  obtain ⟨o, hop, hlow, rfl⟩ := (decode_ok_iff_fields w i).1 h
  apply BitVec.eq_of_toNat_eq
  rw [encode_toNat, opcode_build, lowBits_build hlow, ← hop, ← word_toNat]

/-! ### The opcode map (R98) -/

/-- R98: the row of an opcode. Its mask covers all but the operand bits, its match is the opcode byte. -/
def Opcode.row (o : Opcode) : OpcodeRow :=
  ⟨o, o.format, BitVec.ofNat 32 (o.byte.toNat * 2 ^ 24), BitVec.allOnes 32 <<< o.format.operandBits.sum⟩

theorem opcodeMap_eq_map_row : opcodeMap = Opcode.all.map Opcode.row := by decide

theorem mem_opcodeMap_iff (r : OpcodeRow) : r ∈ opcodeMap ↔ ∃ o : Opcode, o.row = r := by
  simp [opcodeMap_eq_map_row, Opcode.mem_all]

/-- R98: the match and mask columns ask for the opcode byte and the format's reserved bits. -/
theorem row_selects_iff (o : Opcode) (w : Word) :
    w &&& o.row.mask = o.row.bits ↔
      opField w = o.byte ∧ (lowField w).toNat / 2 ^ o.format.operandBits.sum = 0 := by
  have hw := word_toNat w
  have ho := o.byte.isLt
  have hl := (lowField w).isLt
  have hbits : o.row.bits.toNat = o.byte.toNat * 2 ^ 24 := by
    simp only [Opcode.row, BitVec.toNat_ofNat]
    omega
  have hmask : (w &&& o.row.mask).toNat = _ := Laws.EncodedWord.mask_shift w o.format.operandBits.sum
  rw [← BitVec.toNat_inj, ← BitVec.toNat_inj, hbits, hmask]
  cases o.format <;> simp only [Format.operandBits, List.sum_cons, List.sum_nil] <;> omega

/-- R98: the words that decode are those a row selects. -/
theorem decode_ok_iff_row (w : Word) (i : Instr) :
    decode w = .ok i ↔ ∃ o : Opcode, w &&& o.row.mask = o.row.bits ∧ o.build (lowField w) = i := by
  simp only [decode_ok_iff_fields, row_selects_iff, and_assoc]

/-- Settles O4: a row selects by the fields the decoder looks at, and no two rows have the same opcode byte. -/
theorem opcodeMapSelectsInstruction : Obligations.OpcodeMapSelectsInstruction := by
  refine ⟨rfl, fun w => ⟨fun r hr hsel => ?_, fun r hr q hq hsel hsel' => ?_, fun hnone => ?_⟩⟩
  · obtain ⟨o, rfl⟩ := (mem_opcodeMap_iff r).1 hr
    exact ⟨_, (decode_ok_iff_row w _).2 ⟨o, hsel, rfl⟩, opcode_build o _⟩
  · obtain ⟨o, rfl⟩ := (mem_opcodeMap_iff r).1 hr
    obtain ⟨p, rfl⟩ := (mem_opcodeMap_iff q).1 hq
    have ho := ((row_selects_iff o w).1 hsel).1
    have hp := ((row_selects_iff p w).1 hsel').1
    rw [Opcode.byte_injective (ho.symm.trans hp)]
  · refine decode_error_of_ne_ok fun i hi => ?_
    obtain ⟨o, hsel, -⟩ := (decode_ok_iff_row w i).1 hi
    exact hnone _ ((mem_opcodeMap_iff _).2 ⟨o, rfl⟩) hsel

/-- Settles O1: each word is the encoding of its command. -/
theorem sampleWordsDecode : Obligations.SampleWordsDecode :=
  ⟨decode_encode (.crcByte 0x01#8), decode_encode (.rdreg 0x0003#16), decode_encode (.val 9#8 0x04#8),
    decode_encode (.enc 0x06#8), decode_encode .rxLoop, decode_encode .pkDec⟩

/-! ### The assembler (R102) -/

theorem operandsFit_nil {vs : List Nat} (h : operandsFit [] vs = true) : vs = [] := by
  cases vs with
  | nil => rfl
  | cons v vs => cases h

/-- A number in range is a bit field's value. -/
theorem operandsFit_cons {n : Nat} {bits vs : List Nat} (h : operandsFit (n :: bits) vs = true) :
    ∃ (b : BitVec n) (rest : List Nat), vs = b.toNat :: rest ∧ operandsFit bits rest = true := by
  cases vs with
  | nil => cases h
  | cons v rest =>
    obtain ⟨hv, hrest⟩ := Bool.and_eq_true_iff.1 h
    exact ⟨⟨v, of_decide_eq_true hv⟩, rest, rfl, hrest⟩

theorem operandsFit_singleton {n : Nat} {vs : List Nat} (h : operandsFit [n] vs = true) :
    ∃ b : BitVec n, vs = [b.toNat] := by
  obtain ⟨b, rest, rfl, hrest⟩ := operandsFit_cons h
  exact ⟨b, by rw [operandsFit_nil hrest]⟩

/-- R102: a well-formed line is the line of an instruction. -/
theorem exists_toLine_eq {l : CommandLine} (h : l.wf = true) : ∃ i : Instr, i.toLine = l := by
  obtain ⟨o, vs⟩ := l
  suffices hi : ∃ i : Instr, i.opcode = o ∧ i.operands = vs by
    obtain ⟨i, rfl, rfl⟩ := hi
    exact ⟨i, rfl⟩
  cases o with
  | crcByte =>
    obtain ⟨b, rfl⟩ := operandsFit_singleton h
    exact ⟨.crcByte b, rfl, rfl⟩
  | rxPush =>
    obtain ⟨b, rfl⟩ := operandsFit_singleton h
    exact ⟨.rxPush b, rfl, rfl⟩
  | enc =>
    obtain ⟨b, rfl⟩ := operandsFit_singleton h
    exact ⟨.enc b, rfl, rfl⟩
  | rdreg =>
    obtain ⟨r, rfl⟩ := operandsFit_singleton h
    exact ⟨.rdreg r, rfl, rfl⟩
  | val =>
    obtain ⟨l, rest, rfl, hrest⟩ := operandsFit_cons h
    obtain ⟨f, rfl⟩ := operandsFit_singleton hrest
    exact ⟨.val l f, rfl, rfl⟩
  | _ => exact ⟨_, opcode_build _ 0#24, (operandsFit_nil h).symm⟩

/-- R102, column "word": below `op << 24` stand the instruction's low bits. -/
theorem operandWord_operands (i : Instr) : i.opcode.format.operandWord i.operands = i.lowBits.toNat := by
  cases i with
  | crcByte b | rxPush b | enc b => exact (byte_lowBits_toNat b).symm
  | rdreg r => exact (lowBits_rdreg_toNat r).symm
  | val l f =>
    rw [lowBits_val_toNat, ← Nat.shiftLeft_eq, Nat.shiftLeft_add_eq_or_of_lt f.isLt]
    rfl
  | _ => rfl

theorem assemble_toLine (i : Instr) : assemble i.toLine = some (encode i) := by
  have hwf : i.toLine.wf = true := instr_wf i
  have hbits : i.toLine.opcode.format.operandWord i.toLine.operands = i.lowBits.toNat := operandWord_operands i
  rw [assemble, if_pos hwf, hbits, ← Nat.shiftLeft_add_eq_or_of_lt i.lowBits.isLt, Nat.shiftLeft_eq]
  refine congrArg some (BitVec.eq_of_toNat_eq ?_)
  rw [BitVec.toNat_ofNat, ← Nat.mod_eq_of_lt (encode i).isLt, encode_toNat]
  rfl

theorem assemble_eq_none_iff (l : CommandLine) : assemble l = none ↔ l.wf = false := by
  cases h : l.wf <;> simp [assemble, h]

/-- Settles O7: a well-formed line is an instruction's, so its word is that instruction's encoding. -/
theorem assemblerMatchesEncoder : Obligations.AssemblerMatchesEncoder := by
  refine ⟨assemble_toLine, assemble_eq_none_iff, fun l w h => ?_⟩
  have hwf : l.wf = true := by
    rw [← Bool.not_eq_false, ← assemble_eq_none_iff, h]
    exact Option.some_ne_none w
  obtain ⟨i, rfl⟩ := exists_toLine_eq hwf
  obtain rfl := Option.some.inj ((assemble_toLine i).symm.trans h)
  exact ⟨i, decode_encode i, rfl⟩

end Sys2Proof

namespace Sys2Proof.Machine

/-! ### Executing a word (R90, R99, R103) -/

theorem execute_ok {w : Word} {i : Instr} (h : decode w = .ok i) (s : State) : execute w s = exec i s := by
  rw [execute, h]

/-- R254: an illegal word sets STATUS.ERR to 7. -/
theorem execute_error {w : Word} {e : DecodeError} (h : decode w = .error e) (s : State) :
    execute w s = .next { s with err := 7#4 } := by
  rw [execute, h]
  rfl

/-- R99: a word is illegal if its reserved bits are not 0 whatever listed opcode it has. -/
theorem execute_illegal {w : Word}
    (h : ∀ o : Opcode, opField w = o.byte → (lowField w).toNat / 2 ^ o.format.operandBits.sum ≠ 0) (s : State) :
    execute w s = .next { s with err := 7#4 } := by
  have herr : ∃ e, decode w = .error e := decode_error_of_ne_ok fun i hi => by
    obtain ⟨o, hop, hlow, -⟩ := (decode_ok_iff_fields w i).1 hi
    exact h o hop hlow
  obtain ⟨e, he⟩ := herr
  exact execute_error he s

/-- R98, R99: no opcode has a number of the unlisted ranges. -/
theorem opcode_byte_listed (o : Opcode) :
    ¬((0x05 ≤ o.byte.toNat ∧ o.byte.toNat ≤ 0x07) ∨ (0x0B ≤ o.byte.toNat ∧ o.byte.toNat ≤ 0x0F) ∨
      (0x14 ≤ o.byte.toNat ∧ o.byte.toNat ≤ 0x1F) ∨ (0x24 ≤ o.byte.toNat ∧ o.byte.toNat ≤ 0x2F) ∨
      0x33 ≤ o.byte.toNat) := by
  cases o <;> decide

/-- Settles O6: a word of an unlisted opcode has no opcode's byte; reserved bits are those above the operands. -/
theorem reservedEncodingsAreIllegal : Obligations.ReservedEncodingsAreIllegal := by
  refine fun s w => ⟨fun hop => ?_, fun o hop hlow => ?_, decode_encode .nop⟩
  · refine execute_illegal (fun o ho => ?_) s
    rw [ho] at hop
    exact absurd hop (opcode_byte_listed o)
  · refine execute_illegal (fun p hp => ?_) s
    obtain rfl := Opcode.byte_injective (hop.symm.trans hp)
    obtain ⟨hf, hne⟩ | ⟨hf, hne⟩ | ⟨hf | hf, hne⟩ := hlow <;> rw [hf]
    · exact fun h => hne ((Nat.div_one _).symm.trans h)
    · exact hne
    · exact hne
    · exact hne

theorem decodeTableWord_eq_some {nbits w : Nat} {i : Instr} (h : decodeTableWord nbits w = some i) :
    decode (BitVec.ofNat 32 (w % 2 ^ nbits)) = .ok i := by
  unfold decodeTableWord at h
  cases hd : decode (BitVec.ofNat 32 (w % 2 ^ nbits)) with
  | error e => rw [hd] at h; cases h
  | ok j => rw [hd] at h; exact congrArg Except.ok (Option.some.inj h)

theorem step_cmd {w : Word} {i : Instr} (h : decode w = .ok i) (s : State) (rest : List HostEvent) :
    step { s with host.pending := .access (storeOf s .cmd w) :: rest } = exec i { s with host.pending := rest } := by
  rw [step_store, if_pos rfl, execute_ok h]

/-- Settles O8: a write to CMD is `execute` of the word, and `withFetchWord` is such a write. -/
theorem stepRunsDecodedCommand : Obligations.StepRunsDecodedCommand :=
  ⟨fun s rest _ _ h => step_cmd h s rest, fun s _ _ h => step_cmd (decodeTableWord_eq_some h) s s.host.pending⟩

/-! ### RXLOAD (R104, R161, R162) -/

/-- Everything RX.PUSH can do: append the byte, or drop it on a full buffer. -/
theorem exec_rxPush_cases (b : Byte) (s : State) :
    (∃ h : s.rx.len.val < 16, exec (.rxPush b) s = .next (finish .ok (appendRx b s h))) ∨
      (s.rx.len.val = 16 ∧ exec (.rxPush b) s = .next (finish .rxOverflow s)) := by
  by_cases h : s.rx.len.val < 16
  · exact .inl ⟨h, dif_pos h⟩
  · have := s.rx.len.isLt
    exact .inr ⟨by omega, dif_neg h⟩

/-- R104: `t` is `s` with the response buffer loaded with `bytes`, of which it keeps the first 16. -/
structure RxLoaded (s : State) (bytes : List Byte) (t : State) : Prop where
  bytes_eq : rxBytes t = bytes.take 16
  tail : RxTailZero t
  err_eq : t.err = if bytes.length ≤ 16 then 0#4 else 4#4
  frame : { t with rx := s.rx, err := s.err } = s

theorem rxLoaded_clear (s : State) : RxLoaded s [] (finish .ok (clearRx s)) where
  bytes_eq := rfl
  tail := clearRx_rxTailZero s
  err_eq := rfl
  frame := rfl

theorem RxLoaded.len_eq {s t : State} {bytes : List Byte} (h : RxLoaded s bytes t) :
    t.rx.len.val = min 16 bytes.length := by
  rw [← rxBytes_length, h.bytes_eq, List.length_take]

/-- R162: one more byte pushed is one more byte loaded. -/
theorem RxLoaded.push {s t : State} {bytes : List Byte} (h : RxLoaded s bytes t) (b : Byte) :
    ∃ u, exec (.rxPush b) t = .next u ∧ RxLoaded s (bytes ++ [b]) u := by
  have hlen := h.len_eq
  have hcount : (bytes ++ [b]).length = bytes.length + 1 := List.length_append
  obtain ⟨hlt, hexec⟩ | ⟨hfull, hexec⟩ := exec_rxPush_cases b t
  · refine ⟨_, hexec, ?_, appendRx_rxTailZero h.tail b hlt, (if_pos (by omega)).symm, h.frame⟩
    refine (rxBytes_appendRx b t hlt).trans ?_
    rw [h.bytes_eq, List.take_of_length_le (by omega), List.take_of_length_le (by omega)]
  · refine ⟨_, hexec, ?_, h.tail, (if_neg (by omega)).symm, h.frame⟩
    rw [List.take_append_of_le_length (by omega)]
    exact h.bytes_eq

/-- Settles O32: by induction on the bytes from the last one, each of which is one `RxLoaded.push`. -/
theorem rxLoadHoldsTheBytes : Obligations.RxLoadHoldsTheBytes := by
  intro s bytes
  suffices h : ∃ t, execAll (.rxClr :: bytes.map .rxPush) s = .next t ∧ RxLoaded s bytes t by
    obtain ⟨t, hexec, hbytes, htail, herr, hframe⟩ := h
    exact ⟨t, hexec, hbytes, htail, herr, hframe⟩
  induction bytes using List.reverseRecOn with
  | nil => exact ⟨_, rfl, rxLoaded_clear s⟩
  | append_singleton bytes b ih =>
    obtain ⟨t, hload, ht⟩ := ih
    obtain ⟨u, hpush, hu⟩ := ht.push b
    refine ⟨u, ?_, hu⟩
    rw [List.map_append, ← List.cons_append, execAll_append hload, List.map_singleton, execAll, hpush]
    rfl

end Sys2Proof.Machine
end

section
/-! SUPPORT. The CRC unit (spec/40_crc.md): the bit steps of R120 as an iteration and, while they only shift out zero bits,
as a shift; from these the residue property (R122) and what the three CRC commands leave (R124 to R126). -/

namespace Sys2Proof.Machine

/-! ### Bit steps (R120) -/

theorem crcBits_eq_iterate (n : Nat) (c : Half) : crcBits n c = crcBit^[n] c := by
  induction n generalizing c with
  | zero => rfl
  | succ n ih => exact ih (crcBit c)

/-- R120: bit 0 is 1 exactly if the value is odd. -/
theorem crcBit_eq_ite_odd (c : Half) : crcBit c = if c.toNat % 2 = 1 then (c >>> 1) ^^^ 0xA001#16 else c >>> 1 := by
  simp only [crcBit, Config.crcPoly, BitVec.getLsbD, Nat.testBit_zero, decide_eq_true_eq]

/-- Bit steps that meet only zero bits never xor the polynomial in. -/
theorem crcBits_eq_ushiftRight {n : Nat} {c : Half} (h : ∀ i < n, c.getLsbD i = false) : crcBits n c = c >>> n := by
  induction n generalizing c with
  | zero => rfl
  | succ n ih =>
    have hbit : crcBit c = c >>> 1 := if_neg (by rw [h 0 n.succ_pos]; decide)
    have hshift : ∀ i < n, (c >>> 1).getLsbD i = false := fun i hi => by
      rw [BitVec.getLsbD_ushiftRight]
      exact h (1 + i) (by omega)
    calc crcBits (n + 1) c = crcBits n (c >>> 1) := congrArg (crcBits n) hbit
      _ = c >>> 1 >>> n := ih hshift
      _ = c >>> (n + 1) := by rw [← BitVec.shiftRight_add, Nat.add_comm]

/-! ### The residue (R122) -/

theorem ushiftRight_eight_eq_hiByte (c : Half) : c >>> 8 = (hiByte c).setWidth 16 := by
  apply BitVec.eq_of_toNat_eq
  have := c.isLt
  rw [BitVec.toNat_ushiftRight, BitVec.toNat_setWidth, hiByte_toNat, Nat.shiftRight_eq_div_pow]
  omega

theorem setWidth_ushiftRight_eight (b : Byte) : b.setWidth 16 >>> 8 = 0#16 := by
  apply BitVec.eq_of_toNat_eq
  have := b.isLt
  rw [BitVec.toNat_ushiftRight, BitVec.toNat_setWidth, BitVec.toNat_ofNat, Nat.shiftRight_eq_div_pow]
  omega

/-- Xoring the low byte in clears it, so the eight steps shift the high byte down. -/
theorem crcStep_loByte (c : Half) : crcStep c (loByte c) = (hiByte c).setWidth 16 := by
  have hlow : ∀ i < 8, (c ^^^ (loByte c).setWidth 16).getLsbD i = false := fun i hi => by
    simp [loByte, hi, show i < 16 by omega]
  calc crcStep c (loByte c) = (c ^^^ (loByte c).setWidth 16) >>> 8 := crcBits_eq_ushiftRight hlow
    _ = c >>> 8 ^^^ (loByte c).setWidth 16 >>> 8 := BitVec.ushiftRight_xor_distrib ..
    _ = c >>> 8 ^^^ 0#16 := congrArg _ (setWidth_ushiftRight_eight (loByte c))
    _ = c >>> 8 := BitVec.xor_zero
    _ = (hiByte c).setWidth 16 := ushiftRight_eight_eq_hiByte c

/-- A byte equal to the CRC cancels it. -/
theorem crcStep_setWidth_self (b : Byte) : crcStep (b.setWidth 16) b = 0#16 := by
  rw [crcStep, BitVec.xor_self]
  rfl

theorem crc16_append_trailer (m : List Byte) : crc16 (m ++ [loByte (crc16 m), hiByte (crc16 m)]) = 0#16 := by
  rw [crc16_append, List.foldl_cons, List.foldl_cons, List.foldl_nil, crcStep_loByte, crcStep_setWidth_self]

/-- Settles O21: the low byte's step leaves the high byte, the high byte's step leaves 0. -/
theorem crcResidueIsZero : Obligations.CrcResidueIsZero := crc16_append_trailer

/-! ### CRC.INIT (R124) -/

theorem exec_crcInit (s : State) : exec .crcInit s = .next { s with crc := Config.crcInit, err := 0#4 } := rfl

/-- Settles O18: CRC.INIT has no operand, so a nonzero low field is illegal by `reservedEncodingsAreIllegal`. -/
theorem crcInitSetsInitialValue : Obligations.CrcInitSetsInitialValue := by
  refine fun s => ⟨exec_crcInit s, rfl, fun w hop hlow => ?_⟩
  have hne : (lowField w).toNat ≠ 0 := fun h => hlow (BitVec.eq_of_toNat_eq h)
  exact (reservedEncodingsAreIllegal s w).2.1 .crcInit hop (.inl ⟨rfl, hne⟩)

/-! ### CRC.BYTE (R125) -/

theorem exec_crcByte (b : Byte) (s : State) :
    exec (.crcByte b) s = .next { s with crc := crcStep s.crc b, err := 0#4 } := rfl

/-- Settles O19: `crcStep` iterates `crcBit` eight times, and `crcBit` is the step of R120. -/
theorem crcByteFoldsEightBits : Obligations.CrcByteFoldsEightBits := by
  intro s b
  rw [exec_crcByte, crcStep, crcBits_eq_iterate, funext crcBit_eq_ite_odd]

/-- R121, R125: one CRC.BYTE a byte is one `crcStep` a byte. -/
theorem execAll_crcByte (bytes : List Byte) (s : State) (c : Half) :
    execAll (bytes.map .crcByte) { s with crc := c, err := 0#4 } =
      .next { s with crc := bytes.foldl crcStep c, err := 0#4 } := by
  induction bytes generalizing c with
  | nil => rfl
  | cons b bytes ih => exact ih (crcStep c b)

/-- Settles O20: CRC.INIT gives the fold its initial value, and `execAll_crcByte` is the fold. -/
theorem crcBytesAccumulate : Obligations.CrcBytesAccumulate :=
  ⟨rfl, fun s bytes => execAll_crcByte bytes s Config.crcInit⟩

/-! ### CRC.RX (R126) -/

theorem exec_crcRx (s : State) : exec .crcRx s = .next { s with crc := crc16 (rxBytes s), err := 0#4 } := rfl

/-- Settles O23: an empty buffer holds no byte, and a message with its trailer has residue 0 (`crc16_append_trailer`). -/
theorem crcRxCoversTheBuffer : Obligations.CrcRxCoversTheBuffer := by
  refine fun s => ⟨_, exec_crcRx s, rfl, fun hempty => ?_, fun m hm => ?_, rfl⟩
  · have hnil : rxBytes s = [] := List.length_eq_zero_iff.mp ((rxBytes_length s).trans hempty)
    exact congrArg crc16 hnil
  · exact (congrArg crc16 hm).trans (crc16_append_trailer m)

/-! ### Golden vectors (R123) -/

/-- Settles O22: both sequences evaluated. -/
theorem crcGoldenVector : Obligations.CrcGoldenVector := by
  unfold Obligations.CrcGoldenVector
  decide +kernel

end Sys2Proof.Machine
end

section
/-! SUPPORT. The framer (spec/41_framer.md): what a framer command's frame is a function of (R140, R142 to R146), and
that the frame, looped back, carries its own CRC (R141, R163, R191). -/

namespace Sys2Proof.Machine

/-! ### The frame of a framer command (R140, R143 to R146) -/

/-- A field of a field: the offsets add up. -/
theorem extractLsb'_extractLsb'_add {w k n j m : Nat} (x : BitVec w) (h : j + m ≤ n) :
    (x.extractLsb' k n).extractLsb' j m = x.extractLsb' (k + j) m := by
  ext i hi
  simp [show j + i < n by omega, Nat.add_assoc]

/-! R96: OPND holds the register and then the value, each high byte first. -/

theorem hiByte_opndReg (s : State) : hiByte (opndReg s) = s.regs.opnd.extractLsb' 24 8 :=
  extractLsb'_extractLsb'_add _ (by decide)

theorem loByte_opndReg (s : State) : loByte (opndReg s) = s.regs.opnd.extractLsb' 16 8 :=
  extractLsb'_extractLsb'_add _ (by decide)

theorem hiByte_opndVal (s : State) : hiByte (opndVal s) = s.regs.opnd.extractLsb' 8 8 :=
  extractLsb'_extractLsb'_add _ (by decide)

theorem loByte_opndVal (s : State) : loByte (opndVal s) = s.regs.opnd.extractLsb' 0 8 :=
  extractLsb'_extractLsb'_add _ (by decide)

/-- Settles O24: RDDIST and RDREG name their fields; ENC and WRREG take the four bytes of OPND. -/
theorem framerCommandsBuildFrames : Obligations.FramerCommandsBuildFrames := by
  intro s framed b
  have hopnd (f : Byte) : finish .ok (storeFrame s.regs.devaddr f (opndReg s) (opndVal s) s) =
      framed f (b 3) (b 2) (b 1) (b 0) := by
    simp only [storeFrame, frameBody, hiByte_opndReg, loByte_opndReg, hiByte_opndVal, loByte_opndVal]
    rfl
  refine ⟨fun f => congrArg _ (hopnd f), rfl, fun _ => rfl, congrArg _ (hopnd 0x06#8), fun _ => ?_, rfl,
    fun _ => ?_, rfl⟩
  · simp [encode_toNat, Instr.opcode, Opcode.byte]
  · simp [encode_toNat, Instr.opcode, Opcode.byte]

/-! ### What the frame depends on (R142) -/

/-- R142: a framer command builds one frame, whose register and value OPND alone determines. -/
theorem exec_framer {i : Instr} (hi : isFramer i = true) :
    ∃ (f : Byte) (r v : Word → Half), ∀ s,
      exec i s = .next (finish .ok (storeFrame s.regs.devaddr f (r s.regs.opnd) (v s.regs.opnd) s)) := by
  cases i with
  | enc f => exact ⟨f, BitVec.extractLsb' 16 16, BitVec.extractLsb' 0 16, fun _ => rfl⟩
  | rddist => exact ⟨0x04#8, fun _ => 0x0000#16, fun _ => 0x0002#16, fun _ => rfl⟩
  | rdreg r => exact ⟨0x04#8, fun _ => r, fun _ => 0x0001#16, fun _ => rfl⟩
  | wrreg => exact ⟨0x06#8, BitVec.extractLsb' 16 16, BitVec.extractLsb' 0 16, fun _ => rfl⟩
  | _ => cases hi

/-- Settles O26: by `exec_framer` both states store the same frame. -/
theorem frameDependsOnOperandsOnly : Obligations.FrameDependsOnOperandsOnly := by
  intro s₁ s₂ i hi hdev hopnd
  obtain ⟨f, r, v, hexec⟩ := exec_framer hi
  refine ⟨_, _, hexec s₁, hexec s₂, rfl, rfl, rfl, rfl, ?_⟩
  rw [hdev, hopnd]
  exact ⟨rfl, rfl⟩

/-! ### The frame looped back (R141, R163, R191) -/

theorem execAll_cons {i : Instr} {s t : State} (h : exec i s = .next t) (is : List Instr) :
    execAll (i :: is) s = execAll is t := by
  rw [execAll, h]

/-- R140, R141: the request is the body, then the body's CRC, low byte first. -/
theorem txBytes_storeFrame (a f : Byte) (r v : Half) (s : State) :
    txBytes (storeFrame a f r v s) =
      frameBody a f r v ++ [loByte (crc16 (frameBody a f r v)), hiByte (crc16 (frameBody a f r v))] := rfl

@[simp] theorem txBytes_length (s : State) : (txBytes s).length = s.tx.len.val := by
  have := s.tx.len.isLt
  rw [txBytes, List.length_take, Vector.length_toList]
  omega

/-- R163: the looped response is the request. -/
theorem rxBytes_loopRx (s : State) : rxBytes (loopRx s) = txBytes s := by
  have hlen : (loopRx s).rx.len.val = s.tx.len.val := rfl
  refine List.ext_getElem (by rw [rxBytes_length, txBytes_length, hlen]) fun k hrx htx => ?_
  rw [rxBytes_length, hlen] at hrx
  have := s.tx.len.isLt
  have hbyte := rxByte_loopRx s k (by omega)
  rw [if_pos hrx, rxByte, txByte] at hbyte
  simpa [rxBytes, txBytes, show k < 8 by omega, show k < 16 by omega] using hbyte

/-- A framer command and RX.LOOP leave a response that ends with its own CRC. -/
theorem execAll_framer_rxLoop {i : Instr} (hi : isFramer i = true) (s : State) :
    ∃ (u : State) (m : List Byte), execAll [i, .rxLoop] s = .next u ∧ m.length = 6 ∧
      rxBytes u = m ++ [loByte (crc16 m), hiByte (crc16 m)] := by
  obtain ⟨f, r, v, hexec⟩ := exec_framer hi
  exact ⟨_, frameBody _ _ _ _, execAll_cons (hexec s) [.rxLoop], rfl,
    (rxBytes_loopRx _).trans (txBytes_storeFrame s.regs.devaddr f (r s.regs.opnd) (v s.regs.opnd) s)⟩

/-- R191: FCHK of a response that ends with its own CRC reports success and leaves that CRC. -/
theorem exec_fchk_of_trailer {s : State} {m : List Byte}
    (h : rxBytes s = m ++ [loByte (crc16 m), hiByte (crc16 m)]) :
    exec .fchk s = .next (finish .ok { s with crc := crc16 m }) := by
  have hlen : s.rx.len.val = m.length + 2 := by rw [← rxBytes_length, h, List.length_append]; rfl
  have hbody : bodyCrc s s.rx.len.val = crc16 m := by
    have htake : (rxBytes s).take m.length = s.rx.buf.toList.take m.length := by
      rw [rxBytes, List.take_take, min_eq_left (by omega)]
    rw [bodyCrc, hlen, Nat.add_sub_cancel, ← htake, h, List.take_left]
  have htrailer : trailerIs s s.rx.len.val (crc16 m) = true := by
    rw [trailerIs, rxByte_eq_rxBytes_getD (by omega), rxByte_eq_rxBytes_getD (by omega), h, hlen]
    simp [List.getD_eq_getElem?_getD]
  rw [exec, execFchk, if_neg (by omega), checkCrc, hbody, htrailer]
  rfl

/-- Settles O25: the looped frame ends with its own CRC, which FCHK accepts and which has residue 0. -/
theorem builtFrameChecksOut : Obligations.BuiltFrameChecksOut := by
  intro s i hi
  obtain ⟨u, m, hloop, hm, hbytes⟩ := execAll_framer_rxLoop hi s
  have hlen : u.rx.len.val = 8 := by rw [← rxBytes_length, hbytes, List.length_append, hm]; rfl
  have hresidue : crc16 (rxBytes u) = 0#16 := (congrArg crc16 hbytes).trans (crc16_append_trailer m)
  exact ⟨⟨_, (execAll_append hloop [.fchk]).trans (execAll_cons (exec_fchk_of_trailer hbytes) []), rfl, hlen⟩,
    ⟨_, (execAll_append hloop [.crcRx]).trans (execAll_cons (exec_crcRx u) []), rfl, hresidue⟩⟩

end Sys2Proof.Machine
end

section
/-! SUPPORT. NOP and the response buffer's commands (spec/42_buffer.md): what each leaves (R160 to R163), that a decode
command needs a response of its own length (R180, R193 to R197), and that the buffer's writers keep its invariant (R164). -/

namespace Sys2Proof.Machine

/-! ### A response of the wrong length (R180) -/

theorem validate_shortFrame {len : Nat} {s : State} (h : s.rx.len.val ≠ len) (func : Byte) :
    validate len func s = ⟨.shortFrame, s⟩ := if_pos h

theorem exec_val_shortFrame {len : Byte} {s : State} (h : s.rx.len.val ≠ len.toNat) (func : Byte) :
    exec (.val len func) s = .next (finish .shortFrame s) := by
  rw [exec, execVal, validate_shortFrame h]

/-- R193, R195, R197: a decode command validates a response of 7, 8 or 9 bytes. -/
theorem exec_decoder {i : Instr} (hi : isDecoder i = true) (s : State) :
    ∃ len func value distance, 7 ≤ len ∧ len ≤ 9 ∧
      exec i s = .next (finishDecode (validate len func s) value distance) := by
  cases i with
  | decDist => exact ⟨9, _, _, _, by decide, le_rfl, rfl⟩
  | decU16 => exact ⟨7, _, _, _, le_rfl, by decide, rfl⟩
  | decAck => exact ⟨8, _, _, _, by decide, by decide, rfl⟩
  | _ => cases hi

/-- R161, R162: so neither an empty nor a full response buffer decodes. -/
theorem exec_decoder_shortFrame {i : Instr} (hi : isDecoder i = true) {s : State}
    (h : s.rx.len.val < 7 ∨ 9 < s.rx.len.val) : ∃ u, exec i s = .next u ∧ u.err = 1#4 := by
  obtain ⟨len, func, value, distance, hmin, hmax, hexec⟩ := exec_decoder hi s
  have hlen : s.rx.len.val ≠ len := by omega
  exact ⟨_, hexec, by rw [finishDecode_err, validate_shortFrame hlen]; rfl⟩

/-! ### NOP (R160) -/

theorem exec_nop (s : State) : exec .nop s = .next { s with err := 0#4 } := rfl

/-- Settles O28: NOP has no operand, so a nonzero low field is illegal by `reservedEncodingsAreIllegal`. -/
theorem nopOnlyReportsSuccess : Obligations.NopOnlyReportsSuccess := by
  refine fun s => ⟨exec_nop s, rfl, fun w hop hlow => ?_⟩
  have hne : (lowField w).toNat ≠ 0 := fun h => hlow (BitVec.eq_of_toNat_eq h)
  exact (reservedEncodingsAreIllegal s w).2.1 .nop hop (.inl ⟨rfl, hne⟩)

/-! ### RX.CLR (R161) -/

@[simp] theorem clearRx_len (s : State) : (clearRx s).rx.len.val = 0 := rfl

theorem exec_rxClr (s : State) : exec .rxClr s = .next (finish .ok (clearRx s)) := rfl

/-- Settles O29: the empty buffer has no decode command's length, and not that of a VAL of nonzero length. -/
theorem rxClrEmptiesBuffer : Obligations.RxClrEmptiesBuffer := by
  refine fun s => ⟨_, exec_rxClr s, fun k _ => rxByte_clearRx s k, rfl, rfl, rfl, rfl,
    fun i hi => exec_decoder_shortFrame hi (.inl (by simp)), fun len func hlen => ?_, rfl⟩
  have hne : 0 ≠ len.toNat := fun h => hlen (BitVec.eq_of_toNat_eq h.symm)
  exact ⟨_, exec_val_shortFrame hne func, rfl⟩

/-! ### RX.PUSH (R162) -/

theorem exec_rxPush_append (b : Byte) {s : State} (h : s.rx.len.val < 16) :
    exec (.rxPush b) s = .next (finish .ok (appendRx b s h)) := dif_pos h

theorem exec_rxPush_overflow (b : Byte) {s : State} (h : s.rx.len.val = 16) :
    exec (.rxPush b) s = .next { s with err := 4#4 } := dif_neg (by omega)

/-- Settles O30: the two branches of RX.PUSH; the full buffer it leaves has no decode command's length. -/
theorem rxPushAppendsOrOverflows : Obligations.RxPushAppendsOrOverflows := by
  refine fun s b => ⟨fun h => ?_, fun h => ⟨exec_rxPush_overflow b h, fun i hi => ?_⟩, ?_⟩
  · exact ⟨_, exec_rxPush_append b h, rfl, rfl, fun k _ => rxByte_appendRx b s h k, rfl⟩
  · obtain ⟨u, hexec, herr⟩ := exec_decoder_shortFrame hi (s := { s with err := 4#4 }) (.inr (by simp [h]))
    exact ⟨u, (execAll_cons (exec_rxPush_overflow b h) [i]).trans (execAll_cons hexec []), herr⟩
  · simp [encode_toNat, Instr.opcode, Opcode.byte]

/-! ### RX.LOOP (R163) -/

theorem exec_rxLoop (s : State) : exec .rxLoop s = .next (finish .ok (loopRx s)) := rfl

/-- R163: with no frame built the loopback is empty. -/
theorem loopRx_eq_clearRx {s : State} (h : s.tx.len.val = 0) : loopRx s = clearRx s := by
  have hbyte (k : Nat) : loopByte s k = 0x00#8 := if_neg (by omega)
  have hlen : s.tx.len = 0 := Fin.ext h
  simp only [loopRx, hbyte, hlen]
  rfl

/-- Settles O31: byte by byte by `rxByte_loopRx`. -/
theorem rxLoopCopiesRequest : Obligations.RxLoopCopiesRequest := fun s =>
  ⟨_, exec_rxLoop s, rfl, rfl, rxByte_loopRx s, rfl, fun h => by rw [loopRx_eq_clearRx h, exec_rxClr], rfl⟩

/-! ### The buffer's invariant (R38, R164) -/

theorem exec_rxPush_rxTailZero {b : Byte} {s t : State} (h : exec (.rxPush b) s = .next t) (hs : RxTailZero s) :
    RxTailZero t := by
  obtain ⟨hlt, hexec⟩ | ⟨-, hexec⟩ := exec_rxPush_cases b s <;>
    obtain rfl := Host.Outcome.next.inj (hexec.symm.trans h)
  · exact appendRx_rxTailZero hs b hlt
  · exact hs

/-- Settles O33: the frame is `exec_rx`; a cleared or looped buffer is 0 above its length, and a push keeps it so. -/
theorem bufferCommandsOwnRxBuffer : Obligations.BufferCommandsOwnRxBuffer := by
  refine fun s t i h => ⟨exec_rx h, ?_, ?_⟩
  · rintro (rfl | rfl) <;> obtain rfl := Host.Outcome.next.inj h
    · exact clearRx_rxTailZero s
    · exact loopRx_rxTailZero s
  · rintro b rfl
    exact exec_rxPush_rxTailZero h

end Sys2Proof.Machine
end

section
/-! SUPPORT. The validator and the decode commands (spec/43_validator.md): what a validation answers in each case of R181
and when the response is the expected one (R180), FCHK (R191), and what a decode command adds to its validation (R185,
R186, R193 to R197). -/

namespace Sys2Proof.Machine

/-! ### The CRC check (R180, R191) -/

/-- The CRC check runs over the response's own bytes. -/
theorem bodyCrc_eq_crc16_rxBytes {s : State} {n : Nat} (h : n ≤ s.rx.len.val) :
    bodyCrc s n = crc16 ((rxBytes s).take (n - 2)) := by
  rw [bodyCrc, rxBytes, List.take_take, min_eq_left (by omega)]

theorem checkCrc_code_eq_ok_iff (n : Nat) (s : State) :
    (checkCrc n s).code = .ok ↔
      rxByte s (n - 2) = loByte (bodyCrc s n) ∧ rxByte s (n - 1) = hiByte (bodyCrc s n) := by
  have htrailer : trailerIs s n (bodyCrc s n) = true ↔
      rxByte s (n - 2) = loByte (bodyCrc s n) ∧ rxByte s (n - 1) = hiByte (bodyCrc s n) := by simp [trailerIs]
  rw [← htrailer]
  obtain ⟨-, ⟨ht, hc⟩ | ⟨ht, hc⟩⟩ := checkCrc_cases n s <;> simp [ht, hc]

/-- What a command that ends with the CRC check leaves: R191's two byte comparisons decide its code. -/
theorem finish_checkCrc (n : Nat) (s : State) :
    finish (checkCrc n s).code (checkCrc n s).state =
      { s with
        crc := bodyCrc s n
        err := if rxByte s (n - 2) ≠ loByte (bodyCrc s n) ∨ rxByte s (n - 1) ≠ hiByte (bodyCrc s n)
          then 3#4 else 0#4 } := by
  simp only [ne_eq, ← not_and_or, ← checkCrc_code_eq_ok_iff]
  obtain ⟨hs, ⟨-, hc⟩ | ⟨-, hc⟩⟩ := checkCrc_cases n s <;> rw [hs, hc] <;> rfl

/-- Settles O35: the two branches of FCHK, the second by `finish_checkCrc`. -/
theorem fchkChecksTrailingCrc : Obligations.FchkChecksTrailingCrc := by
  intro s n c
  refine ⟨fun h => if_pos h, fun h => ?_, rfl⟩
  calc exec .fchk s = .next (finish (checkCrc n s).code (checkCrc n s).state) := if_neg (by omega)
    _ = _ := by rw [finish_checkCrc, bodyCrc_eq_crc16_rxBytes le_rfl]; rfl

/-! ### Validation, case by case (R180, R181) -/

section
variable {len : Nat} {func : Byte} {s : State}

theorem validate_funcMismatch (hl : s.rx.len.val = len) (hf : len < 2 ∨ rxByte s 1 ≠ func) :
    validate len func s = ⟨.funcMismatch, s⟩ := by
  rw [validate, if_neg (not_not.mpr hl), if_pos hf]

theorem validate_matching (hl : s.rx.len.val = len) (h2 : 2 ≤ len) (hf : rxByte s 1 = func) :
    validate len func s = if s.regs.rxcrc then checkCrc len s else ⟨.ok, s⟩ := by
  rw [validate, if_neg (not_not.mpr hl), if_neg (not_or.mpr ⟨not_lt.mpr h2, not_not.mpr hf⟩)]

/-- A validation succeeds exactly on the expected response. -/
theorem validate_code_eq_ok_iff : (validate len func s).code = .ok ↔ ResponseValid len func s := by
  rw [ResponseValid]
  obtain ⟨hl, h⟩ | ⟨hl, hf, h⟩ | ⟨hl, h2, hf, hr, h⟩ | ⟨hl, h2, hf, hr, h⟩ := validate_cases len func s <;> rw [h]
  · simp [hl]
  · have hbad : ¬ (2 ≤ len ∧ rxByte s 1 = func) := by rwa [not_and_or, not_le]
    exact iff_of_false (by simp) fun ⟨_, h2, hb, _⟩ => hbad ⟨h2, hb⟩
  · rw [checkCrc_code_eq_ok_iff, bodyCrc_eq_crc16_rxBytes hl.ge]
    simp [hl, h2, hf, hr]
  · simp [hl, h2, hf, hr]

end

theorem exec_val_funcMismatch {len func : Byte} {s : State} (hl : s.rx.len.val = len.toNat)
    (hf : len.toNat < 2 ∨ rxByte s 1 ≠ func) : exec (.val len func) s = .next (finish .funcMismatch s) := by
  rw [exec, execVal, validate_funcMismatch hl hf]

/-- Settles O34: a clause for each case of the validation; `finish_checkCrc` where it reaches the CRC. -/
theorem valResultCodes : Obligations.ValResultCodes := by
  refine fun s len func => ⟨fun hl => exec_val_shortFrame hl func, exec_val_funcMismatch, fun hl h2 hf hr => ?_,
    fun hl h2 hf hr => ?_⟩
  · rw [exec, execVal, validate_matching hl h2 hf, if_pos hr, finish_checkCrc, bodyCrc_eq_crc16_rxBytes hl.ge]
    rfl
  · rw [exec, execVal, validate_matching hl h2 hf, hr]
    rfl

/-! ### Decode commands (R193, R195, R197) -/

/-- A decode command writes DEC_VALUE and DISTV; all else it leaves as the VAL of the same length and function does. -/
theorem finishDecode_validate_eq_finish (len : Nat) (func : Byte) (s : State) (value : Word) (distance : Bool) :
    { finishDecode (validate len func s) value distance with decValue := s.decValue, distv := s.distv } =
      finish (validate len func s).code (validate len func s).state := by
  obtain ⟨c, h⟩ := validate_state len func s
  rw [finishDecode, h]
  rfl

theorem finishDecode_err_eq_zero_iff (c : Checked) (value : Word) (distance : Bool) :
    (finishDecode c value distance).err = 0#4 ↔ c.code = .ok := by
  rw [finishDecode_err, ResultCode.code_eq_zero_iff]

/-- R180, R193, R195, R197: a decode command ends with OK exactly on a response it accepts. -/
theorem responseValid_iff_finishDecode_err (len : Nat) (func : Byte) (s : State) (value : Word) (distance : Bool) :
    ResponseValid len func s ↔ (finishDecode (validate len func s) value distance).err = 0#4 := by
  rw [finishDecode_err_eq_zero_iff, validate_code_eq_ok_iff]

/-- R193, R195, R197: DEC_VALUE is the decoded value if the command ends with OK, and 0 if not. -/
theorem finishDecode_decValue (c : Checked) (value : Word) (distance : Bool) :
    (finishDecode c value distance).decValue =
      if (finishDecode c value distance).err = 0#4 then value else 0#32 := by
  simp only [finishDecode_err_eq_zero_iff]
  rfl

/-- Settles O36: `decodeDist_toNat` under a valid response; the rest is DEC.DIST's common end after VAL 9, 0x04. -/
theorem decDistDecodesDistance : Obligations.DecDistDecodesDistance := by
  intro s
  refine ⟨_, _, rfl, rfl, responseValid_iff_finishDecode_err .., fun hok => ⟨?_, ?_⟩, fun hfail => ⟨?_, ?_⟩,
    finishDecode_validate_eq_finish .., rfl⟩
  · rw [finishDecode_decValue, if_pos hok, decodeDist_toNat]
  · simpa [finishDecode_distv] using (finishDecode_err_eq_zero_iff ..).mp hok
  · rw [finishDecode_decValue, if_neg hfail]
  · simpa [finishDecode_distv] using mt (finishDecode_err_eq_zero_iff ..).mpr hfail

theorem decodeU16_setWidth_toNat (s : State) :
    ((decodeU16 s).setWidth 32).toNat = (rxByte s 3).toNat * 256 + (rxByte s 4).toNat := by
  rw [BitVec.toNat_setWidth_of_le (by decide), decodeU16, be16_toNat]

/-- Settles O37: both commands share the decode commands' common end, only the decoded value differs. -/
theorem decU16AndDecAckDecode : Obligations.DecU16AndDecAckDecode := by
  refine fun s => ⟨⟨_, _, rfl, rfl, responseValid_iff_finishDecode_err .., ?_, rfl, finishDecode_validate_eq_finish ..⟩,
    ⟨_, _, rfl, rfl, responseValid_iff_finishDecode_err .., ?_, rfl, finishDecode_validate_eq_finish ..⟩, rfl, rfl⟩
  · rw [finishDecode_decValue, apply_ite BitVec.toNat, decodeU16_setWidth_toNat]
    rfl
  · rw [finishDecode_decValue, apply_ite BitVec.toNat]
    rfl

/-! ### What a validation without CRC check looks at (R182, R198) -/

/-- R180: with CTRL.RXCRC = 0 a validation looks at RXLEN and byte 1 and writes nothing. -/
theorem validate_congr_of_unchecked {s t : State} (hs : s.regs.rxcrc = false) (hregs : t.regs = s.regs)
    (hlen : t.rx.len = s.rx.len) (h1 : rxByte t 1 = rxByte s 1) (len : Nat) (func : Byte) :
    ∃ e, validate len func s = ⟨e, s⟩ ∧ validate len func t = ⟨e, t⟩ := by
  obtain ⟨hl, h⟩ | ⟨hl, hf, h⟩ | ⟨-, -, -, hr, -⟩ | ⟨hl, h2, hf, -, h⟩ := validate_cases len func s
  · exact ⟨_, h, validate_shortFrame (by rwa [hlen]) func⟩
  · exact ⟨_, h, validate_funcMismatch (by rwa [hlen]) (by rwa [h1])⟩
  · cases hs.symm.trans hr
  · exact ⟨_, h, (validate_matching (by rwa [hlen]) h2 (h1.trans hf)).trans (if_neg (by simp [hregs, hs]))⟩

/-- R185: the distance is read from bytes 3 to 6. -/
theorem decodeDist_congr {s t : State} (h : ∀ k ∈ [3, 4, 5, 6], rxByte t k = rxByte s k) :
    decodeDist t = decodeDist s := by
  rw [decodeDist, decodeDist, h 3 (by decide), h 4 (by decide), h 5 (by decide), h 6 (by decide)]

/-- Settles O38: neither the validation nor the decoded distance looks at another byte. -/
theorem uncheckedBytesDoNotMatter : Obligations.UncheckedBytesDoNotMatter := by
  intro s buf hr hbuf
  obtain ⟨e, hs, ht⟩ := validate_congr_of_unchecked (t := { s with rx.buf := buf }) hr rfl rfl
    (hbuf 1 (by decide)) 9 0x04#8
  have hdist : decodeDist { s with rx.buf := buf } = decodeDist s :=
    decodeDist_congr fun k hk => hbuf k (List.mem_cons_of_mem 1 hk)
  refine ⟨finishDecode ⟨e, s⟩ (decodeDist s) true, ?_, ?_⟩
  · rw [exec, execDecDist, hs]
  · rw [exec, execDecDist, ht, hdist]
    rfl

/-! ### A Modbus error reply (R184) -/

/-- Below 0x80 the error bit of a function code is clear, so an error reply answers another function. -/
theorem or_0x80_ne_self {f : Byte} (h : f.toNat < 0x80) : f ||| 0x80#8 ≠ f := by
  intro heq
  have hset : f.getLsbD 7 = true := by rw [← heq]; simp
  have hclear : f.getLsbD 7 = false := Nat.testBit_lt_two_pow h
  cases hset.symm.trans hclear

/-- Settles O39: no decode command expects five bytes; VAL 5, F sees the error bit. -/
theorem errorReplyFailsValidation : Obligations.ErrorReplyFailsValidation := by
  intro s f hlen hf hreply
  have hne : rxByte s 1 ≠ f := by rw [hreply]; exact or_0x80_ne_self hf
  exact ⟨fun i hi => exec_decoder_shortFrame hi (.inl (by omega)), _, exec_val_funcMismatch hlen (.inr hne), rfl⟩

end Sys2Proof.Machine
end

section
/-! SUPPORT. The peak engine (spec/44_peak.md): the ratio divider (R215, R216), what PK.SMP does in each transition of
R212 and the result it emits (R214), PK.DEC as PK.SMP of the decoded distance (R232), and a whole peak (R213, R217). -/

namespace Sys2Proof.Machine

/-! ### The ratio divider (R215, R216) -/

/-- R215: a nonzero width never sets RUNDEF; the quotient saturates at the largest Q16.16 value, and RSAT says so. -/
theorem ratioDiv_of_width_ne_zero {depth : Word} {width : Width48} (hw : width.toNat ≠ 0) :
    (ratioDiv depth width).rundef = false ∧
      (ratioDiv depth width).ratio.toNat = min (depth.toNat * 65536 / width.toNat) (2 ^ 32 - 1) ∧
      ((ratioDiv depth width).rsat = true ↔ depth.toNat * 65536 / width.toNat > 2 ^ 32 - 1) := by
  obtain ⟨h0, -⟩ | ⟨-, hq, h⟩ | ⟨-, hq, h⟩ := ratioDiv_cases depth width
  · exact absurd h0 hw
  · rw [h]
    exact ⟨rfl, (min_eq_right hq.le).symm, iff_of_true rfl hq⟩
  · rw [h]
    exact ⟨rfl, (Nat.mod_eq_of_lt (Nat.lt_succ_of_le hq)).trans (min_eq_left hq).symm,
      iff_of_false Bool.false_ne_true (not_lt.mpr hq)⟩

/-- Settles O46: an unsaturated ratio is the quotient of the natural numbers. -/
theorem ratioIsTruncatedQuotient : Obligations.RatioIsTruncatedQuotient := by
  intro depth width hw hsat
  obtain ⟨-, hratio, hrsat⟩ := ratioDiv_of_width_ne_zero (depth := depth) hw
  have hle : depth.toNat * 65536 / width.toNat ≤ 2 ^ 32 - 1 := by simpa [hsat] using hrsat
  rw [hratio, min_eq_left hle]
  exact ⟨Nat.div_mul_le_self _ _, Nat.lt_mul_of_div_lt (Nat.lt_succ_self _) (Nat.pos_of_ne_zero hw)⟩

/-! ### The sample commands (R231, R232) -/

theorem exec_pkSmp {s : State} (hb : s.regs.blvalid = true) :
    exec .pkSmp s = .next (finish .ok (pkStep s.regs.opnd s)) := if_pos hb

theorem exec_pkDec {s : State} (hb : s.regs.blvalid = true) (hd : s.distv = true) :
    exec .pkDec s = .next (finish .ok { pkStep s.decValue s with distv := false }) := by
  rw [← pkStep_distv]
  exact (if_pos hb).trans (if_pos hd)

theorem exec_pkDec_noData {s : State} (hb : s.regs.blvalid = true) (hd : s.distv = false) :
    exec .pkDec s = .next (rejectSample .noData s) :=
  (if_pos hb).trans (if_neg (by simp [hd]))

/-- Settles O41. -/
theorem pkRstClearsPeakEngine : Obligations.PkRstClearsPeakEngine := fun _ => ⟨rfl, rfl⟩

/-- Settles O42: the baseline is looked at before DISTV. -/
theorem sampleCommandsAreRejected : Obligations.SampleCommandsAreRejected := fun _ =>
  ⟨fun hb => ⟨exec_sample_noBaseline hb (.inl rfl), exec_sample_noBaseline hb (.inr rfl)⟩, exec_pkDec_noData⟩

/-- A peak step takes its sample from its caller: it neither looks at OPND nor writes it (R212). -/
theorem pkStep_opnd (x : Word) (s : State) (v : Word) :
    pkStep x { s with regs.opnd := v } = { pkStep x s with regs.opnd := v } := by
  unfold pkStep
  dsimp only
  split <;> rfl

/-- Settles O45: both commands run one peak step of DEC_VALUE; PK.DEC leaves DISTV clear for the second one. -/
theorem pkDecFeedsDecodedDistanceOnce : Obligations.PkDecFeedsDecodedDistanceOnce := by
  intro s hb hd
  have hdec := exec_pkDec hb hd
  refine ⟨_, _, hdec, exec_pkSmp hb, ?_, rfl, exec_decValue hdec rfl, rfl,
    exec_pkDec_noData (by rw [exec_regs hdec, hb]) rfl⟩
  obtain ⟨p, r, b, hp⟩ := pkStep_frame s.decValue s
  have hsmp : pkStep s.decValue { s with regs.opnd := s.decValue, distv := false } =
      { pkStep s.decValue s with regs.opnd := s.decValue, distv := false } :=
    (pkStep_distv s.decValue { s with regs.opnd := s.decValue } false).trans (by rw [pkStep_opnd])
  rw [hsmp, hp]
  rfl

/-! ### PK.SMP, transition by transition (R212) -/

theorem aboveThreshold_eq_true_iff {dev : Int} {thr : Word} :
    aboveThreshold dev thr = true ↔ dev > (thr.toNat : Int) :=
  decide_eq_true_iff

theorem aboveThreshold_eq_false_iff {dev : Int} {thr : Word} :
    aboveThreshold dev thr = false ↔ dev ≤ (thr.toNat : Int) := by
  rw [← Bool.not_eq_true, aboveThreshold_eq_true_iff, not_lt]

section
variable {s : State} (hb : s.regs.blvalid = true)
include hb

theorem exec_pkSmp_stayIdle (hi : s.peak.inpeak = false)
    (ha : aboveThreshold (deviation s.regs.opnd s.regs.baseline) s.regs.threshold = false) :
    exec .pkSmp s = .next (finish .ok { s with peak := stayIdle s.peak, pvalid := false }) := by
  simp [exec_pkSmp hb, pkStep, hi, ha]

theorem exec_pkSmp_openPeak (hi : s.peak.inpeak = false)
    (ha : aboveThreshold (deviation s.regs.opnd s.regs.baseline) s.regs.threshold = true) :
    exec .pkSmp s = .next (finish .ok
      { s with peak := openPeak (deviation s.regs.opnd s.regs.baseline) s.peak, pvalid := false }) := by
  simp [exec_pkSmp hb, pkStep, hi, ha]

theorem exec_pkSmp_extendPeak (hi : s.peak.inpeak = true)
    (ha : aboveThreshold (deviation s.regs.opnd s.regs.baseline) s.regs.threshold = true) :
    exec .pkSmp s = .next (finish .ok
      { s with peak := extendPeak (deviation s.regs.opnd s.regs.baseline) s.peak, pvalid := false }) := by
  simp [exec_pkSmp hb, pkStep, hi, ha]

theorem exec_pkSmp_closePeak (hi : s.peak.inpeak = true)
    (ha : aboveThreshold (deviation s.regs.opnd s.regs.baseline) s.regs.threshold = false) :
    exec .pkSmp s = .next (finish .ok
      { s with result := emittedResult s, peak := closePeak s.peak, pvalid := true }) := by
  simp [exec_pkSmp hb, pkStep, hi, ha]

end

/-- Settles O43: an open peak's MAX_DEV is the exact deviation, or the larger one, because it is above threshold. -/
theorem pkSmpTransitions : Obligations.PkSmpTransitions := by
  intro s hb dev thr
  refine ⟨fun hi hle => exec_pkSmp_stayIdle hb hi (aboveThreshold_eq_false_iff.mpr hle), fun hi hgt => ?_,
    fun hi hgt => ?_⟩
  · have ha := aboveThreshold_eq_true_iff.mpr hgt
    exact ⟨_, (above_toNat ha).1, exec_pkSmp_openPeak hb hi ha⟩
  · have ha := aboveThreshold_eq_true_iff.mpr hgt
    exact ⟨_, _, max_dev_toNat ha, satIncr_toNat _, exec_pkSmp_extendPeak hb hi ha⟩

theorem widthSaturated_eq_true_iff {w : Word} : widthSaturated w = true ↔ w = 0xFFFFFFFF#32 := beq_iff_eq

/-- Settles O44: `peakWidth_toNat` and the divider's two cases say what `emittedResult` is. -/
theorem pkSmpClosesPeakAndEmits : Obligations.PkSmpClosesPeakAndEmits := by
  intro s hb hi hle
  refine ⟨peakWidth s, _, _, _, _, exec_pkSmp_closePeak hb hi (aboveThreshold_eq_false_iff.mpr hle), ?_, fun hw => ?_,
    ratioDiv_of_width_ne_zero, widthSaturated_eq_true_iff⟩
  · rw [peakWidth_toNat]
    cases s.regs.wmode <;> rfl
  · have hzero : ratioDiv s.peak.maxDev (peakWidth s) = ⟨0#32, true, false⟩ := if_pos hw
    rw [hzero]
    exact ⟨rfl, rfl, rfl⟩

/-! ### A whole peak (R213, R217) -/

/-- The last sample is fed to the state the samples before it leave. -/
theorem feedSamples_concat {xs : List Word} {s u : State} (h : feedSamples xs s = .next u) (y : Word) :
    feedSamples (xs ++ [y]) s = exec .pkSmp { u with regs.opnd := y } := by
  induction xs generalizing s with
  | nil =>
    obtain rfl := Host.Outcome.next.inj h
    rw [List.nil_append, feedSamples]
    cases exec .pkSmp { s with regs.opnd := y } <;> rfl
  | cons x xs ih =>
    simp only [List.cons_append, feedSamples] at h ⊢
    split at h
    · exact ih h
    · cases h
    · cases h

/-- `u` holds the peak that the samples `xs`, fed to the idle state `s`, have opened: nothing is emitted yet, the
count is theirs (R213) and the depth is the largest of their deviations (R212). -/
structure HoldsPeak (s : State) (xs : List Word) (u : State) : Prop where
  blvalid : u.regs.blvalid = true
  baseline : u.regs.baseline = s.regs.baseline
  threshold : u.regs.threshold = s.regs.threshold
  inpeak : u.peak.inpeak = true
  pvalid : u.pvalid = false
  count : u.result.count = s.result.count
  width : u.peak.widthCnt.toNat = min xs.length (2 ^ 32 - 1)
  depth_mem : ∃ x ∈ xs, (u.peak.maxDev.toNat : Int) = deviation x s.regs.baseline
  depth_ge : ∀ x ∈ xs, deviation x s.regs.baseline ≤ (u.peak.maxDev.toNat : Int)

theorem holdsPeak_singleton {s : State} {x : Word} (hb : s.regs.blvalid = true) (hi : s.peak.inpeak = false)
    (ha : aboveThreshold (deviation x s.regs.baseline) s.regs.threshold = true) :
    ∃ u, exec .pkSmp { s with regs.opnd := x } = .next u ∧ HoldsPeak s [x] u := by
  have hdev := (above_toNat ha).1
  exact ⟨_, exec_pkSmp_openPeak (s := { s with regs.opnd := x }) hb hi ha, {
    blvalid := hb
    baseline := rfl
    threshold := rfl
    inpeak := rfl
    pvalid := rfl
    count := rfl
    width := rfl
    depth_mem := ⟨x, List.mem_singleton_self x, hdev⟩
    depth_ge := fun z hz => by rw [List.mem_singleton.mp hz]; exact hdev.ge }⟩

theorem HoldsPeak.concat {s u : State} {xs : List Word} (h : HoldsPeak s xs u) {x : Word}
    (ha : aboveThreshold (deviation x s.regs.baseline) s.regs.threshold = true) :
    ∃ v, exec .pkSmp { u with regs.opnd := x } = .next v ∧ HoldsPeak s (xs ++ [x]) v := by
  have hu : aboveThreshold (deviation x u.regs.baseline) u.regs.threshold = true := by
    rw [h.baseline, h.threshold]
    exact ha
  have hmax := max_dev_toNat (m := u.peak.maxDev) hu
  conv_rhs at hmax => rw [h.baseline]
  refine ⟨_, exec_pkSmp_extendPeak (s := { u with regs.opnd := x }) h.blvalid h.inpeak hu,
    { h with pvalid := rfl, width := ?_, depth_mem := ?_, depth_ge := fun z hz => ?_ }⟩
  · refine (satIncr_toNat _).trans ?_
    rw [h.width, List.length_append, List.length_singleton]
    omega
  · obtain ⟨z, hz, hdepth⟩ := h.depth_mem
    obtain hle | hle := le_total (u.peak.maxDev.toNat : Int) (deviation x s.regs.baseline)
    · exact ⟨x, by simp, hmax.trans (max_eq_right hle)⟩
    · exact ⟨z, by simp [hz], (hmax.trans (max_eq_left hle)).trans hdepth⟩
  · refine le_of_le_of_eq ?_ hmax.symm
    obtain hz | hz := List.mem_append.mp hz
    · exact le_max_of_le_left (h.depth_ge z hz)
    · rw [List.mem_singleton.mp hz]
      exact le_max_right _ _

theorem HoldsPeak.widthSaturated_iff {s u : State} {xs : List Word} (h : HoldsPeak s xs u) :
    widthSaturated u.peak.widthCnt = true ↔ 2 ^ 32 - 1 ≤ xs.length := by
  have hwidth := h.width
  rw [widthSaturated_eq_true_iff]
  bv_omega

theorem feedSamples_holdsPeak {s : State} {xs : List Word} (hb : s.regs.blvalid = true) (hi : s.peak.inpeak = false)
    (hne : xs ≠ []) (ha : ∀ x ∈ xs, aboveThreshold (deviation x s.regs.baseline) s.regs.threshold = true) :
    ∃ u, feedSamples xs s = .next u ∧ HoldsPeak s xs u := by
  induction xs using List.reverseRecOn with
  | nil => exact absurd rfl hne
  | append_singleton xs x ih =>
    have hx := ha x (by simp)
    obtain rfl | hne := eq_or_ne xs []
    · rw [feedSamples_concat rfl]
      exact holdsPeak_singleton hb hi hx
    · obtain ⟨u, hfeed, hu⟩ := ih hne fun z hz => ha z (List.mem_append_left _ hz)
      rw [feedSamples_concat hfeed]
      exact hu.concat hx

/-- Settles O47: the samples above threshold leave a state that holds their peak, which the next sample closes. -/
theorem onePeakEmitsOneResult : Obligations.OnePeakEmitsOneResult := by
  intro s xs y hb hi hne hxs hy
  obtain ⟨u, hfeed, hu⟩ := feedSamples_holdsPeak hb hi hne fun x hx => aboveThreshold_eq_true_iff.mpr (hxs x hx)
  have hbelow : aboveThreshold (deviation y u.regs.baseline) u.regs.threshold = false := by
    rw [hu.baseline, hu.threshold]
    exact aboveThreshold_eq_false_iff.mpr hy
  have hclose := exec_pkSmp_closePeak (s := { u with regs.opnd := y }) hu.blvalid hu.inpeak hbelow
  refine ⟨u, _, hfeed, hu.inpeak, hu.pvalid, hu.count, (feedSamples_concat hfeed y).trans hclose, rfl, rfl, ?_,
    hu.width, hu.widthSaturated_iff, hu.depth_mem, hu.depth_ge⟩
  exact congrArg (· + 1#32) hu.count

end Sys2Proof.Machine
end

section
/-! SUPPORT. Result codes (spec/60_exceptions.md): what an illegal word does (R254), and that every command completes with
one of the codes R250 lists for it (R251, R259). -/

namespace Sys2Proof.Machine

/-! ### Illegal words (R99, R254) -/

/-- R98, R99: a word that no row of the opcode map matches is illegal. -/
theorem decode_error_of_unmatched {w : Word} (h : ∀ r ∈ opcodeMap, w &&& r.mask ≠ r.bits) :
    ∃ e, decode w = .error e :=
  have ⟨_, hmap⟩ := opcodeMapSelectsInstruction
  have ⟨_, _, hunmatched⟩ := hmap w
  hunmatched h

theorem step_cmd_illegal {w : Word} {e : DecodeError} (h : decode w = .error e) (s : State) (rest : List HostEvent) :
    step { s with host.pending := .access (storeOf s .cmd w) :: rest } =
      .next { s with err := 7#4, host.pending := rest } := by
  rw [step_store, if_pos rfl, execute_error h]

/-- Settles O5: the unmatched word does not decode, and what does not decode is executed as a result code only. -/
theorem illegalWordOnlySetsErr : Obligations.IllegalWordOnlySetsErr := by
  intro s rest w h
  obtain ⟨e, he⟩ := decode_error_of_unmatched h
  exact step_cmd_illegal he s rest

/-! ### The codes a command ends with (R250) -/

/-- R250: OK is written by every command. -/
theorem ok_mem_codesOf (i : Instr) : ResultCode.ok.code ∈ codesOf i := by
  cases i <;> exact List.mem_cons_self

/-- R181, R250: a validation ends with a code that R250 lists for VAL and the decode commands. -/
theorem validate_code_mem (len : Nat) (func : Byte) (s : State) :
    (validate len func s).code.code ∈ [0#4, 1#4, 2#4, 3#4] := by
  obtain h | h | h | h := validate_code len func s <;> rw [h] <;> decide

/-- R191, R250: the CRC check alone ends with a code that R250 lists for FCHK. -/
theorem checkCrc_code_mem (n : Nat) (s : State) : (checkCrc n s).code.code ∈ codesOf .fchk := by
  obtain ⟨-, ⟨-, h⟩ | ⟨-, h⟩⟩ := checkCrc_cases n s <;> rw [h] <;> decide

/-- R251: a command completes if it ends with `finish` of a code that R250 lists for it. -/
theorem completes_of_finish {i : Instr} {s u : State} {e : ResultCode} (h : exec i s = .next (finish e u))
    (he : e.code ∈ codesOf i) : ∃ t, exec i s = .next t ∧ t.err ∈ codesOf i :=
  ⟨_, h, he⟩

/-- Settles O48: every command ends with `finish`; only the response checks, RX.PUSH and the sample commands can fail. -/
theorem everyCommandCompletes : Obligations.EveryCommandCompletes := by
  intro i s
  cases i with
  | val len func => exact completes_of_finish rfl (validate_code_mem len.toNat func s)
  | decDist | decU16 | decAck => exact completes_of_finish rfl (validate_code_mem _ _ s)
  | fchk =>
    by_cases h : s.rx.len.val < 2
    · exact completes_of_finish (if_pos h) (by decide)
    · exact completes_of_finish (if_neg h) (checkCrc_code_mem _ s)
  | rxPush b =>
    obtain ⟨_, h⟩ | ⟨-, h⟩ := exec_rxPush_cases b s
    · exact completes_of_finish h (ok_mem_codesOf _)
    · exact completes_of_finish h (by simp [codesOf, ResultCode.code])
  | pkSmp =>
    cases hb : s.regs.blvalid with
    | false => exact completes_of_finish (exec_sample_noBaseline hb (.inl rfl)) (by decide)
    | true => exact completes_of_finish (exec_pkSmp hb) (ok_mem_codesOf _)
  | pkDec =>
    cases hb : s.regs.blvalid with
    | false => exact completes_of_finish (exec_sample_noBaseline hb (.inr rfl)) (by decide)
    | true =>
      cases hd : s.distv with
      | false => exact completes_of_finish (exec_pkDec_noData hb hd) (by decide)
      | true => exact completes_of_finish (exec_pkDec hb hd) (ok_mem_codesOf _)
  | _ => exact completes_of_finish rfl (ok_mem_codesOf _)

end Sys2Proof.Machine
end

section
/-! SUPPORT. Reset (spec/70_reset_and_hazards.md): the reset values, which are the block's alone (R280), and what a reset
over an access leaves (R281). -/

namespace Sys2Proof.Machine

/-! ### The reset values (R280) -/

/-- R38: the reset state holds no response, and the bytes past the response are 0x00. -/
theorem rxByte_reset {k : Nat} (hk : k < 16) : rxByte State.reset k = 0x00#8 :=
  inv_reset.rxTail k hk (Nat.zero_le k)

/-- The parts of `AtReset` in its order: STATUS, the other registers, the buffers, the configuration, the peak, the
result. -/
theorem atReset_reset : AtReset State.reset :=
  ⟨by decide, by decide, ⟨rfl, fun k _ => txByte_reset k, rfl, fun _ hk => rxByte_reset hk, rfl⟩, by decide, by decide,
    by decide⟩

/-- R55: the reset values are the block's; the host's side is none of them. -/
theorem AtReset.withHost {s : State} (h : AtReset s) (host : HostSide) : AtReset { s with host := host } := h

theorem atReset_resetBlock (s : State) : AtReset (resetBlock s) := atReset_reset.withHost s.host

/-- Settles O16: the step is `resetBlock`. -/
theorem resetValues : Obligations.ResetValues :=
  ⟨atReset_reset, fun s rest => ⟨_, step_event s .reset rest, atReset_resetBlock _⟩⟩

/-! ### Reset over an access (R281) -/

theorem resetDuringAccess_write {a : BusAccess} {v : Word} (h : a.kind = .write v) (s : State) :
    resetDuringAccess a s = resetBlock s := by
  rw [resetDuringAccess, h]

/-- R281: a read in flight is answered with a free value. -/
theorem resetDuringAccess_read {a : BusAccess} (h : a.kind = .read) (s : State) :
    resetDuringAccess a s =
      respond (.data (Config.freeReadData s.host.freeReads))
        { resetBlock s with host.freeReads := s.host.freeReads + 1 } := by
  rw [resetDuringAccess, h]

theorem atReset_resetDuringAccess (a : BusAccess) (s : State) : AtReset (resetDuringAccess a s) := by
  cases hk : a.kind with
  | read =>
    rw [resetDuringAccess_read hk]
    exact (atReset_resetBlock s).withHost _
  | write v =>
    rw [resetDuringAccess_write hk]
    exact atReset_resetBlock s

/-- R281: a discarded write leaves no trace on the host's side either. -/
theorem resetDuringAccess_write_responses {a : BusAccess} {v : Word} (h : a.kind = .write v) (s : State) :
    (resetDuringAccess a s).host.responses = s.host.responses := by
  rw [resetDuringAccess_write h, resetBlock_host]

theorem resetDuringAccess_read_responses {a : BusAccess} (h : a.kind = .read) (s : State) :
    (resetDuringAccess a s).host.responses =
      s.host.responses ++ [.data (Config.freeReadData s.host.freeReads)] := by
  rw [resetDuringAccess_read h]
  rfl

/-- Settles O17: the block is at reset, and on the host's side at most a read's response is new. -/
theorem resetDiscardsOverlappingAccess : Obligations.ResetDiscardsOverlappingAccess := by
  intro s a rest
  obtain ⟨hpending, hbase, -⟩ := resetDuringAccess_answersAtMostOnce a { s with host.pending := rest }
  refine ⟨_, step_event s (.resetDuring a) rest, atReset_resetDuringAccess a _, hpending, hbase, ?write, ?read⟩
  case write => exact fun ⟨_, hk⟩ => resetDuringAccess_write_responses hk _
  case read => exact fun hk => ⟨_, resetDuringAccess_read_responses hk _⟩

end Sys2Proof.Machine
end
